-- ==== Sys2Proof/Word.lean ====
section
/-! DEFINITION. The words the block's port carries (30_encoding.md R54) and the plainest bit-level shapes of the
spec: bits, codewords, the generator matrix, pairs. -/

namespace Sys2Proof

/-- A command word: "32-bit unsigned" (R51, R54). -/
abbrev Word := BitVec 32

/-- A BitItem or a Status item: "8-bit unsigned" (R54). -/
abbrev Byte := BitVec 8

/-- One NUM value of the reference configuration: one IEEE 754 binary64 bit pattern (R8, R54; log 1). -/
abbrev Num64 := BitVec 64

/-- A channel seed of SEED_W bits, with the spec's default SEED_W = 64 (R11, D17; log 7). -/
abbrev Seed := BitVec 64

/-- `codeword[0] .. codeword[19]`: "ordered sequence of exactly 20 bits" (R6, R41). -/
abbrev Codeword := Vector Bool 20

/-- The generator matrix, `gen[r][c]` being `GEN[r][c]`, rows 0..19 and columns 0..12 (R6, R7, R12). -/
abbrev Gen := Vector (Vector Bool 13) 20

/-- `Cplx`: a pair `(re, im)` of NUM values (R13). -/
structure Cplx (α : Type) where
  re : α
  im : α
deriving DecidableEq, Repr

end Sys2Proof
end

