-- ==== Sys2Proof/Config.lean ====
section
/-! DEFINITION. The implementation parameters (00_scope.md §3). What the spec leaves OPEN and gives no value for is an
`opaque` constant with no body: nothing can evaluate it, so whatever is proved holds whichever value the hardware has. -/

namespace Sys2Proof

/-- R8: the numerics configuration NUM, one carrier type `α` and its operations. The rules on whole vectors
(R80, R90, R91, R100, R112, R113) are written over this record, for every NUM. -/
structure Numerics (α : Type) where
  /-- `⊕` -/
  add : α → α → α
  /-- `⊗` -/
  mul : α → α → α
  /-- `⊘` -/
  div : α → α → α
  /-- `neg` -/
  neg : α → α
  /-- `sqrt` -/
  sqrt : α → α
  /-- `POW10(x)` = 10^x -/
  pow10 : α → α
  /-- the comparison `>` -/
  gt : α → α → Bool
  /-- the predicate `isNaN` -/
  isNaN : α → Bool
  /-- the literal constants `0`, `1`, `2`, `10` and `NEG_INF` -/
  zero : α
  one : α
  two : α
  ten : α
  negInf : α

/-- Which operation produced a NaN (see `Config.nanBits`). -/
inductive NanOp where
  | add | mul | div | sqrt | pow10
deriving DecidableEq, Repr

namespace Config

/-- R7: parameter GEN. **OPEN**: the source does not give the bit pattern (N1), so it is free (log 5). -/
opaque gen : Gen

/-- R10: parameter NOISE, `noise seed σ k` being the k-th sample. **OPEN**, total, with no law (R94; log 6). -/
opaque noise : Seed → Num64 → Nat → Num64

/-- I4: POW10 at the points where the spec states no value of it: free (log 3; `pow10` in Machine/Reference.lean says
where the spec does state one). -/
opaque pow10 : Num64 → Num64

/-- The sign bit (bit 51) and the 51 low payload bits of the NaN an operation answers, as a function of the operation and
its operands (the second is 0 for a unary one): IEEE 754 leaves the pattern open, and R61 says no rule's result depends
on it; free (log 4). -/
opaque nanBits : NanOp → Num64 → Num64 → BitVec 52

/-- R11, D30: the HOST's parameter DEFAULT_SEED, **OPEN**: used by the host's macros only, no state of the block (log 18). -/
opaque defaultSeed : Seed

end Config
end Sys2Proof
end

