-- ==== Sys2Proof/Syntax.lean ====
section
/-! DEFINITION. The instructions: one constructor per row of the opcode map (30_encoding.md R52, R53). -/

namespace Sys2Proof

/-- R52, R57: the commands. A field is the natural number its bits stand for ("unsigned and zero-extended to naturals",
R51; log 13): `l` the information length, `n` the element count of the request payload. -/
inductive Instr where
  /-- `ENC_CFG L`, OP = 0x1 (R71) -/
  | encCfg (l : Nat)
  /-- `ENCODE`, OP = 0x2 (R72) -/
  | encode (n : Nat)
  /-- `MODULATE`, OP = 0x3 (R80) -/
  | modulate (n : Nat)
  /-- `CHAN_CFG`, OP = 0x4 (R90) -/
  | chanCfg
  /-- `TRANSMIT`, OP = 0x5 (R91) -/
  | transmit (n : Nat)
  /-- `DEMODULATE`, OP = 0x6 (R100) -/
  | demodulate (n : Nat)
  /-- `DEC_CFG L`, OP = 0x7 (R110) -/
  | decCfg (l : Nat)
  /-- `DECODE`, OP = 0x8 (R111) -/
  | decode (n : Nat)
  /-- `RESET`, OP = 0xF (R130) -/
  | reset
deriving DecidableEq, Repr

end Sys2Proof
end

