-- ==== Sys2Proof/WellFormed.lean ====
section
/-! DEFINITION. Which instructions have a command word: the widths of the fields of the format CMD (30_encoding.md R51).
Any value of a field is a legal encoding; "Whether the value is a supported length is checked when the command runs". -/

namespace Sys2Proof

/-- L is 8 bits, bits [15:8] (R51). -/
def lengthFits (l : Nat) : Bool := decide (l < 256)

/-- N is 16 bits, bits [31:16] (R51). -/
def countFits (n : Nat) : Bool := decide (n < 65536)

/-- The instruction can be written as a command word. -/
def Instr.wf : Instr → Bool
  | .encCfg l => lengthFits l
  | .encode n => countFits n
  | .modulate n => countFits n
  | .chanCfg => true
  | .transmit n => countFits n
  | .demodulate n => countFits n
  | .decCfg l => lengthFits l
  | .decode n => countFits n
  | .reset => true

end Sys2Proof
end

