-- ==== Sys2Proof/Decode.lean ====
section
/-! DEFINITION. Decoding a command word (30_encoding.md R57, total on every 32-bit word) and, after it, encoding an
instruction from the same tables (R51 to R53). -/

namespace Sys2Proof

/-- Why a word is ILLEGAL: the three kinds R58 lists. -/
inductive Illegal where
  /-- "any word with RSV ≠ 0" -/
  | reservedBits
  /-- "OP 0x0 and OP 0x9 .. 0xE (reserved opcodes)" -/
  | reservedOpcode
  /-- "any word with a non-zero field that its opcode does not use" -/
  | unusedField
deriving DecidableEq, Repr

/-- `w[3:0]` (R51). -/
def opField (w : Word) : BitVec 4 := w.extractLsb' 0 4
/-- `w[7:4]` (R51). -/
def rsvField (w : Word) : BitVec 4 := w.extractLsb' 4 4
/-- `w[15:8]` (R51). -/
def lField (w : Word) : BitVec 8 := w.extractLsb' 8 8
/-- `w[31:16]` (R51). -/
def nField (w : Word) : BitVec 16 := w.extractLsb' 16 16

/-- `c ? i : ILLEGAL`, the field check of R57. -/
def fieldCheck (unusedIsZero : Bool) (i : Instr) : Except Illegal Instr :=
  match unusedIsZero with
  | true => .ok i
  | false => .error .unusedField

/-- The `case op of` of R57. -/
def decodeOp (op : BitVec 4) (l : BitVec 8) (n : BitVec 16) : Except Illegal Instr :=
  match op.toNat with
  | 0x1 => fieldCheck (n == 0) (.encCfg l.toNat)
  | 0x2 => fieldCheck (l == 0) (.encode n.toNat)
  | 0x3 => fieldCheck (l == 0) (.modulate n.toNat)
  | 0x4 => fieldCheck (l == 0 && n == 0) .chanCfg
  | 0x5 => fieldCheck (l == 0) (.transmit n.toNat)
  | 0x6 => fieldCheck (l == 0) (.demodulate n.toNat)
  | 0x7 => fieldCheck (n == 0) (.decCfg l.toNat)
  | 0x8 => fieldCheck (l == 0) (.decode n.toNat)
  | 0xF => fieldCheck (l == 0 && n == 0) .reset
  | _ => .error .reservedOpcode

/-- R57: `decodeCmd`, with ILLEGAL as an error that names its kind. -/
def decodeCmd (w : Word) : Except Illegal Instr :=
  if rsvField w ≠ 0 then .error .reservedBits
  else decodeOp (opField w) (lField w) (nField w)

/-- The instruction the decoder reads from a table row's `nbits` bits `w`, bit 0 the least significant of the command
word; the bits above `nbits` are 0 (log 14). -/
def decodeTableWord (nbits w : Nat) : Option Instr :=
  match decodeCmd (BitVec.ofNat 32 (w % 2 ^ nbits)) with
  | .ok i => some i
  | .error _ => none

/-- A row of the opcode map with the word's match and mask (R53). -/
structure Row where
  mnemonic : String
  matchBits : Word
  mask : Word
deriving DecidableEq, Repr

/-- R53: the nine rows. -/
def opcodeRows : List Row :=
  [⟨"ENC_CFG", 0x00000001, 0xFFFF00FF⟩,
   ⟨"ENCODE", 0x00000002, 0x0000FFFF⟩,
   ⟨"MODULATE", 0x00000003, 0x0000FFFF⟩,
   ⟨"CHAN_CFG", 0x00000004, 0xFFFFFFFF⟩,
   ⟨"TRANSMIT", 0x00000005, 0x0000FFFF⟩,
   ⟨"DEMODULATE", 0x00000006, 0x0000FFFF⟩,
   ⟨"DEC_CFG", 0x00000007, 0xFFFF00FF⟩,
   ⟨"DECODE", 0x00000008, 0x0000FFFF⟩,
   ⟨"RESET", 0x0000000F, 0xFFFFFFFF⟩]

/-- The word is one of the row's: `w & mask = match` (R53). -/
def Row.holds (r : Row) (w : Word) : Bool := w &&& r.mask == r.matchBits

/-- The row of an instruction (R52). -/
def Instr.mnemonic : Instr → String
  | .encCfg _ => "ENC_CFG"
  | .encode _ => "ENCODE"
  | .modulate _ => "MODULATE"
  | .chanCfg => "CHAN_CFG"
  | .transmit _ => "TRANSMIT"
  | .demodulate _ => "DEMODULATE"
  | .decCfg _ => "DEC_CFG"
  | .decode _ => "DECODE"
  | .reset => "RESET"

/-- The opcode of an instruction (R52). -/
def Instr.opcode : Instr → BitVec 4
  | .encCfg _ => 0x1
  | .encode _ => 0x2
  | .modulate _ => 0x3
  | .chanCfg => 0x4
  | .transmit _ => 0x5
  | .demodulate _ => 0x6
  | .decCfg _ => 0x7
  | .decode _ => 0x8
  | .reset => 0xF

/-- The L field of an instruction's word: the length for ENC_CFG and DEC_CFG, "must be 0 for every other opcode" (R51). -/
def Instr.lengthField : Instr → Nat
  | .encCfg l => l
  | .decCfg l => l
  | .encode _ | .modulate _ | .chanCfg | .transmit _ | .demodulate _ | .decode _ | .reset => 0

/-- The N field of an instruction's word: the element count where there is one, "must be 0 for every other opcode" (R51). -/
def Instr.countField : Instr → Nat
  | .encode n => n
  | .modulate n => n
  | .transmit n => n
  | .demodulate n => n
  | .decode n => n
  | .encCfg _ | .chanCfg | .decCfg _ | .reset => 0

/-- The command word of an instruction: N[31:16], L[15:8], RSV[7:4] = 0, OP[3:0] (R51, R53). -/
def encode (i : Instr) : Word :=
  BitVec.ofNat 16 i.countField ++ BitVec.ofNat 8 i.lengthField ++ 0x0#4 ++ i.opcode

end Sys2Proof
end

