-- ==== Sys2Proof/Machine/State.lean ====
section
/-! DEFINITION. The state of one block: `(GEN, ENC, DEC, CHAN, FAULT)` (10_state.md R20) with its port, as plain data, and
the state after power-on reset (R30, 70_reset_and_hazards.md R160). -/

namespace Sys2Proof.Machine

/-- One item of a payload or of a response (R54, R44); a Cplx is two NUM items, re then im (log 15). -/
inductive Item where
  /-- a BitItem, 0..255 -/
  | bit (b : Byte)
  /-- a NUM value -/
  | num (x : Num64)
  /-- a Seed -/
  | seed (v : Seed)
deriving DecidableEq, Repr

/-- The type of an item (R54). -/
inductive ItemKind where
  | bit | num | seed
deriving DecidableEq, Repr

/-- R50: a command word, then its request payload. -/
structure Transaction where
  word : Word
  payload : List Item
deriving DecidableEq, Repr

/-- R140: the status codes by name (`Status.code` in Flags.lean gives each its code). -/
inductive Status where
  | ok | invalidConfiguration | invalidInput | notConfigured | illegalCommand
deriving DecidableEq, Repr

/-- R56: one Status item, then the result items. -/
structure Response where
  status : Byte
  items : List Item
deriving DecidableEq, Repr

/-- R22: the encoder configuration register. -/
structure Enc where
  valid : Bool
  l : BitVec 8
deriving DecidableEq, Repr

/-- R23: the decoder configuration register with its table. -/
structure Dec where
  valid : Bool
  l : BitVec 8
  table : List Codeword
deriving DecidableEq, Repr

/-- R25: the channel configuration and generator register; `(seed, k)` is the generator's state (R26). -/
structure Chan where
  valid : Bool
  snrDb : Num64
  sigma : Num64
  seed : Seed
  k : Nat
deriving DecidableEq, Repr

/-- The reasons the model stops with a fault. -/
inductive Fault where
  /-- F_NAN_METRIC (R144). DECODE marks it in `State.fault` when a metric is NaN (R114); from then on `step` raises it on
  every command (R27). Safe: the hardware returns some index and goes on where the model stops (D15; log 11). -/
  | nanMetric
deriving DecidableEq, Repr

/-- The reasons the model gives a transaction no step. -/
inductive Refusal where
  /-- An instruction with no meaning yet, raised by an arm of `exec`: no arm of this model. Safe: the model stops. -/
  | notModelled (mnemonic : String)
  /-- R59: the request payload has not the shape R55 gives for the command word, so the transaction is not admitted: "The
  model gives it no step". Raised by every meaning and by the illegal command. Safe: the model stops (log 10). -/
  | notAdmitted
deriving DecidableEq, Repr

/-- R20: the architectural state, and the port (`pending`, `responses`: the model's own fields, log 8). -/
structure State where
  /-- R21: the generator ROM. -/
  gen : Gen
  /-- R22 -/
  enc : Enc
  /-- R23 -/
  dec : Dec
  /-- R25 -/
  chan : Chan
  /-- R27: the model's fault mark. -/
  fault : Option Fault
  /-- The transactions the host will issue, the next one first (R46, R50). -/
  pending : List Transaction
  /-- The responses the block has sent, oldest first (R56). -/
  responses : List Response
deriving DecidableEq, Repr

/-- R30: ENC after a reset. `l` is unspecified there: 0 is the model's choice (DESIGN CHOICE, log 12). -/
def Enc.reset : Enc := ⟨false, 0⟩

/-- R30: DEC after a reset, its table empty. `l` is unspecified there: 0 is the model's choice (DESIGN CHOICE, log 12). -/
def Dec.reset : Dec := ⟨false, 0, []⟩

/-- R30: CHAN after a reset. Every field but `valid` is unspecified there: 0 is the model's choice (DESIGN CHOICE, log 12). -/
def Chan.reset : Chan := ⟨false, 0, 0, 0, 0⟩

/-- R160: power-on reset. "every unit is unconfigured; DEC.TABLE is empty; FAULT = none; GEN holds parameter GEN". No
transaction stands at the port and no response has been sent (log 8). -/
def State.reset : State where
  gen := Config.gen
  enc := .reset
  dec := .reset
  chan := .reset
  fault := none
  pending := []
  responses := []

end Sys2Proof.Machine
end

