-- ==== Sys2Proof/Machine/Flags.lean ====
section
/-! DEFINITION. The block has no condition flags (10_state.md R29; "Flags written" is always "none", 40_encoder.md). The one
outcome a command reports beside its result items is its status code (60_exceptions.md R140). -/

namespace Sys2Proof.Machine

/-- R140: the 8-bit status codes. "Codes 0x05..0xFF are never sent." -/
def Status.code : Status → Byte
  | .ok => 0x00
  | .invalidConfiguration => 0x01
  | .invalidInput => 0x02
  | .notConfigured => 0x03
  | .illegalCommand => 0x04

end Sys2Proof.Machine
end

