-- ==== Sys2Proof/Machine/Operands.lean ====
section
/-! DEFINITION. The operands of a command: its request payload, by the shape R55 gives for the command word, and the readings
of a payload of that shape (30_encoding.md R54, R55, R59; 20_memory.md R41). -/

namespace Sys2Proof.Machine

/-- The type of an item. -/
def Item.kind : Item → ItemKind
  | .bit _ => .bit
  | .num _ => .num
  | .seed _ => .seed

/-- R55: the request payload of each command, element 0 first; a Cplx is two NUM items (R54, log 15). -/
def payloadShape : Instr → List ItemKind
  | .encCfg _ => []
  | .encode n => List.replicate n .bit
  | .modulate n => List.replicate n .bit
  | .chanCfg => [.num, .seed]
  | .transmit n => List.replicate (2 * n) .num
  | .demodulate n => .num :: List.replicate (2 * n) .num
  | .decCfg _ => []
  | .decode n => List.replicate n .num
  | .reset => []

/-- R59: the payload "has exactly the shape": the number of items and their types. -/
def hasShape : List ItemKind → List Item → Bool
  | [], [] => true
  | k :: ks, x :: xs => x.kind == k && hasShape ks xs
  | _, _ => false

/-- The BitItems of a payload, in order. -/
def bitsOf : List Item → List Byte
  | [] => []
  | .bit b :: p => b :: bitsOf p
  | .num _ :: p => bitsOf p
  | .seed _ :: p => bitsOf p

/-- The NUM items of a payload, in order. -/
def numsOf : List Item → List Num64
  | [] => []
  | .num x :: p => x :: numsOf p
  | .bit _ :: p => numsOf p
  | .seed _ :: p => numsOf p

/-- The Seeds of a payload, in order. -/
def seedsOf : List Item → List Seed
  | [] => []
  | .seed v :: p => v :: seedsOf p
  | .bit _ :: p => seedsOf p
  | .num _ :: p => seedsOf p

/-- R54: Cplx items read off NUM items, "re then im". -/
def pairUp {α : Type} : List α → List (Cplx α)
  | re :: im :: rest => ⟨re, im⟩ :: pairUp rest
  | _ => []

/-- Cplx items as NUM items, "re then im" (R54). -/
def cplxItems : List (Cplx Num64) → List Item
  | [] => []
  | s :: rest => .num s.re :: .num s.im :: cplxItems rest

/-- A bit of a result as a BitItem, 0 or 1 (R56). -/
def bitItem (b : Bool) : Item := .bit (if b then 1 else 0)

/-- The item of each type that is all zeros. -/
def zeroItem : ItemKind → Item
  | .bit => .bit 0
  | .num => .num 0
  | .seed => .seed 0

/-- The payload of zeros of the shape the command word calls for; empty for an illegal word (R55; log 14). -/
def zeroPayload (w : Word) : List Item :=
  match decodeCmd w with
  | .ok i => (payloadShape i).map zeroItem
  | .error _ => []

end Sys2Proof.Machine
end

