-- ==== Sys2Proof/Machine/Binary64.lean ====
section
/-! DEFINITION. IEEE 754 binary64 with roundTiesToEven: the arithmetic of the reference configuration (00_scope.md R8,
D11). Each operation is computed exactly on naturals and integers and rounded once, at the end. A finite number is
`mant x · 2^(quantum x) · 2^(-1074)`, where 2^(-1074) is the least positive binary64 number. -/

namespace Sys2Proof.Machine.Binary64

/-- The sign bit, bit 63. -/
def sign (x : Num64) : Bool := x.msb

/-- Bits 62..0: the magnitude as a word. On numbers other than NaN it grows with the magnitude. -/
def magnitude (x : Num64) : Nat := x.toNat % 2 ^ 63

/-- The biased exponent, bits 62..52. -/
def exponent (x : Num64) : Nat := magnitude x / 2 ^ 52

/-- The trailing significand, bits 51..0. -/
def fraction (x : Num64) : Nat := x.toNat % 2 ^ 52

/-- The magnitude word of infinity. -/
def infBits : Nat := 2047 * 2 ^ 52

def isNaN (x : Num64) : Bool := decide (infBits < magnitude x)
def isInf (x : Num64) : Bool := magnitude x == infBits
def isZero (x : Num64) : Bool := magnitude x == 0

/-- The significand as an integer, with its implicit bit where the number is normal. -/
def mant (x : Num64) : Nat := if exponent x = 0 then fraction x else 2 ^ 52 + fraction x

/-- The exponent of the significand's last bit, counted from 2^(-1074). -/
def quantum (x : Num64) : Nat := exponent x - 1

/-- The word with this sign and magnitude word. -/
def withSign (s : Bool) (bits : Nat) : Num64 :=
  BitVec.ofNat 64 (if s then 2 ^ 63 + bits else bits)

def zeroOf (s : Bool) : Num64 := withSign s 0
def infOf (s : Bool) : Num64 := withSign s infBits

/-- A quiet NaN with free sign bit and free low payload bits (log 4). -/
def quietNaN (free : BitVec 52) : Num64 :=
  withSign (free.getLsbD 51) (infBits + 2 ^ 51 + free.toNat % 2 ^ 51)

/-- `m / 2^k` rounded to the nearest integer, ties to even. -/
def roundShift (m k : Nat) : Nat :=
  let floor := m >>> k
  let rest := m % 2 ^ k
  if 2 ^ k < 2 * rest ∨ (2 ^ k = 2 * rest ∧ floor % 2 = 1) then floor + 1 else floor

/-- The exponent, from 2^(-1074), of the last significand bit a result of the exact value `m · 2^e · 2^(-1074)` has: 53
significant bits, but never below the least quantum. -/
def resultQuantum (m : Nat) (e : Int) : Nat := (e + (m.log2 : Int) - 52).toNat

/-- The exact value `m · 2^e · 2^(-1074)` in units of the result's last bit, rounded to nearest even. -/
def roundMant (m : Nat) (e : Int) : Nat :=
  let q : Int := resultQuantum m e
  if q ≤ e then m <<< (e - q).toNat else roundShift m (q - e).toNat

/-- The magnitude word of the exact value `m · 2^e · 2^(-1074)` rounded to nearest even; a rounded significand of 2^53
carries into the exponent. Infinity where the result is beyond the greatest finite number. -/
def roundBits (m : Nat) (e : Int) : Nat :=
  if m = 0 then 0
  else min (roundMant m e + resultQuantum m e * 2 ^ 52) infBits

/-- The exact value `±m · 2^e · 2^(-1074)` as a binary64 number. -/
def round (s : Bool) (m : Nat) (e : Int) : Num64 := withSign s (roundBits m e)

/-- `±mant`, as an integer in units of `2^q · 2^(-1074)` for a `q` not above the number's own quantum. -/
def signedMant (x : Num64) (q : Nat) : Int :=
  let m : Nat := mant x <<< (quantum x - q)
  if sign x then -(m : Int) else (m : Int)

/-- `⊕`. An exact sum of zero is +0, but −0 where both operands are −0. -/
def add (x y : Num64) : Num64 :=
  if isNaN x || isNaN y then quietNaN (Config.nanBits .add x y)
  else if isInf x then
    if isInf y && sign x != sign y then quietNaN (Config.nanBits .add x y) else x
  else if isInf y then y
  else
    let q := min (quantum x) (quantum y)
    let sum := signedMant x q + signedMant y q
    if sum = 0 then zeroOf (sign x && sign y)
    else round (decide (sum < 0)) sum.natAbs q

/-- `⊗` -/
def mul (x y : Num64) : Num64 :=
  let s := sign x != sign y
  if isNaN x || isNaN y then quietNaN (Config.nanBits .mul x y)
  else if isInf x || isInf y then
    if isZero x || isZero y then quietNaN (Config.nanBits .mul x y) else infOf s
  else round s (mant x * mant y) ((quantum x : Int) + quantum y - 1074)

/-- `n / d` to `k` further bits, and a last bit that is 1 where anything is left over. -/
def stickyDiv (k n d : Nat) : Nat :=
  let a := n <<< k
  2 * (a / d) + if a % d = 0 then 0 else 1

/-- `⊘` -/
def div (x y : Num64) : Num64 :=
  let s := sign x != sign y
  if isNaN x || isNaN y then quietNaN (Config.nanBits .div x y)
  else if isInf x then
    if isInf y then quietNaN (Config.nanBits .div x y) else infOf s
  else if isInf y then zeroOf s
  else if isZero y then
    if isZero x then quietNaN (Config.nanBits .div x y) else infOf s
  else round s (stickyDiv 120 (mant x) (mant y)) ((quantum x : Int) - quantum y + 1074 - 121)

/-- The integer square root of `n`, from bit `k` down, given that the root so far is `r`. -/
def isqrtFrom (n : Nat) : Nat → Nat → Nat
  | 0, r => if (r + 1) * (r + 1) ≤ n then r + 1 else r
  | k + 1, r =>
    let r' := r + 2 ^ (k + 1)
    isqrtFrom n k (if r' * r' ≤ n then r' else r)

/-- The integer square root of a number below 2^180. -/
def isqrt (n : Nat) : Nat := isqrtFrom n 89 0

/-- The integer square root of `n`, and a last bit that is 1 where anything is left over. -/
def stickySqrt (n : Nat) : Nat :=
  let r := isqrt n
  2 * r + if r * r = n then 0 else 1

/-- `sqrt`. The root of −0 is −0; of any other negative number, NaN. The significand is scaled by 2^120 or 2^121, which
makes the exponent of the scaled number even. -/
def sqrt (x : Num64) : Num64 :=
  if isNaN x then quietNaN (Config.nanBits .sqrt x 0)
  else if isZero x then x
  else if sign x then quietNaN (Config.nanBits .sqrt x 0)
  else if isInf x then x
  else
    let k := 120 + quantum x % 2
    round false (stickySqrt (mant x <<< k)) (((quantum x : Int) - 1074 - k) / 2 + 1074 - 1)

/-- `neg`: "flips the sign bit" (R8). -/
def neg (x : Num64) : Num64 := withSign (!sign x) (magnitude x)

/-- The magnitude word with the number's sign, as an integer: on numbers other than NaN it grows with the number, and +0
and −0 have the same. -/
def orderKey (x : Num64) : Int := if sign x then -(magnitude x : Int) else (magnitude x : Int)

/-- `>`: false where an operand is NaN. -/
def gt (x y : Num64) : Bool :=
  !isNaN x && !isNaN y && decide (orderKey y < orderKey x)

/-- The binary64 number nearest to the decimal number `±digits / 10^places` ("the nearest binary64 value under
roundTiesToEven", R61). -/
def ofDecimal (negative : Bool) (digits places : Nat) : Num64 :=
  round negative (stickyDiv 1200 digits (10 ^ places)) (1074 - 1201)

end Sys2Proof.Machine.Binary64
end

