-- ==== Sys2Proof/Machine/Reference.lean ====
section
/-! DEFINITION. The reference configuration of the parameters NUM and AMP (00_scope.md R8, R9; D11, D12; log 1, log 2,
log 3). -/

namespace Sys2Proof.Machine

/-- The points at which the spec states a value of POW10: I4 ("The test vectors assume POW10(0) = 1, POW10(1) = 10, ..."),
the first also by R90 ("snr_db = 0 gives lin = 1"), with −0 beside +0 (G4). -/
def pow10Points : List (Num64 × Num64) :=
  [(0x0000000000000000, 0x3FF0000000000000),  -- +0 ↦ 1
   (0x8000000000000000, 0x3FF0000000000000),  -- −0 ↦ 1
   (0x3FF0000000000000, 0x4024000000000000),  -- 1 ↦ 10
   (0x4000000000000000, 0x4059000000000000),  -- 2 ↦ 100
   (0xBFF0000000000000, 0x3FB999999999999A),  -- −1 ↦ 0.1
   (0xBFE0000000000000, 0x3FD43D136248490F),  -- −0.5 ↦ 0.31622776601683794
   (0x3FD3333333333333, 0x3FFFEC982D5BB8AF),  -- 0.3 ↦ 1.9952623149688795
   (0x3FB999999999999A, 0x3FF4248EF8FC2604)]  -- 0.1 ↦ 1.2589254117941673

/-- 400 and −400, where I4 says POW10 overflows to +∞ and underflows to 0.0. -/
def pow10Overflow : Num64 := 0x4079000000000000
def pow10Underflow : Num64 := 0xC079000000000000

/-- POW10 of the reference configuration. A NaN gives a NaN (R90: "A NaN snr_db makes sigma NaN"); from 400 up it is +∞ and
from −400 down +0 (R90: "A very large snr_db makes lin = +∞", "A very small one makes lin = 0"; I4); at the points of
`pow10Points` the value stated there; anywhere else the free constant `Config.pow10` (log 3). -/
def pow10 (x : Num64) : Num64 :=
  if Binary64.isNaN x then Binary64.quietNaN (Config.nanBits .pow10 x 0)
  else if !Binary64.gt pow10Overflow x then Binary64.infOf false
  else if !Binary64.gt x pow10Underflow then Binary64.zeroOf false
  else match pow10Points.lookup x with
    | some y => y
    | none => Config.pow10 x

/-- `k x`, evaluated on the numeral `x` stands for: a kernel that evaluates a chain of operations then computes each operand
once (`strict_eq` in Laws/Binary64.lean: it is `k x`). -/
def strict {β : Type} (x : Num64) (k : Num64 → β) : β :=
  match x.toNat with
  | 0 => k 0
  | n + 1 => k (BitVec.ofNat 64 (n + 1))

/-- `f x y`, both operands evaluated first. -/
def strict2 {β : Type} (f : Num64 → Num64 → β) (x y : Num64) : β := strict x fun x => strict y fun y => f x y

/-- R8, D11: NUM in the reference configuration, IEEE 754 binary64 with roundTiesToEven. -/
def reference : Numerics Num64 where
  add := strict2 Binary64.add
  mul := strict2 Binary64.mul
  div := strict2 Binary64.div
  neg x := strict x Binary64.neg
  sqrt x := strict x Binary64.sqrt
  pow10 x := strict x Sys2Proof.Machine.pow10
  gt := strict2 Binary64.gt
  isNaN x := strict x Binary64.isNaN
  zero := 0x0000000000000000
  one := 0x3FF0000000000000
  two := 0x4000000000000000
  ten := 0x4024000000000000
  negInf := 0xFFF0000000000000

/-- R9, D12: AMP "is `1 ⊘ sqrt(2)`" in the reference configuration. -/
def amp : Num64 := reference.div reference.one (reference.sqrt reference.two)

end Sys2Proof.Machine
end

