-- ==== Sys2Proof/Machine/Ops.lean ====
section
/-! DEFINITION. The shared operations: the port (how a command takes its payload and how it ends: R14, R45, R143, R144),
the supported lengths (R5), and the coding function ENC and DEC share (R42, R70). -/

namespace Sys2Proof.Machine

/-! ## The port -/

/-- The command word the host has issued next, if any (R50). -/
def State.nextWord (s : State) : Option Word :=
  match s.pending with
  | [] => none
  | t :: _ => some t.word

/-- The request payload of that transaction. -/
def State.payload (s : State) : List Item :=
  match s.pending with
  | [] => []
  | t :: _ => t.payload

/-- A transaction put in front of those at the port. -/
def State.issueFirst (t : Transaction) (s : State) : State := { s with pending := t :: s.pending }

/-- R50, R56: the command has its one response, and the transaction is over. -/
def State.answer (r : Response) (s : State) : State :=
  { s with pending := s.pending.tail, responses := s.responses ++ [r] }

/-- R14: "`respond(OK, items)` ends the command with status OK and the given response items". -/
def respond (items : List Item) (s : State) : State := s.answer ⟨Status.ok.code, items⟩

/-- R14: "`raise S` ends the command with status S. It writes no state and returns no items" (R143). This is all there is
to taking an exception on this hardware, and there is no return from one (R146). -/
def raise (st : Status) (s : State) : State := s.answer ⟨st.code, []⟩

/-- R144: the model fault. "FAULT <- F", "no response is sent"; the transaction is over (log 11). -/
def raiseFault (f : Fault) (s : State) : State :=
  { s with pending := s.pending.tail, fault := some f }

/-- R59: the command is performed on a payload of this shape; on any other the transaction is not admitted and "The model
gives it no step" (log 10). -/
def perform (shape : List ItemKind) (s : State) (k : List Item → State) : Host.Outcome State Fault Refusal :=
  match hasShape shape s.payload with
  | true => .next (k s.payload)
  | false => .refused .notAdmitted

/-! ## Lengths and coding -/

/-- R5: SUPPORTED_L, the one set ENC and DEC share. -/
def supportedLengths : List Nat := [2, 4, 6, 8, 11]

/-- R6: every codeword has 20 bits, so an LLR vector has 20 elements (R111). -/
def codewordLength : Nat := 20

/-- `GEN[r][c]`, and 0 beyond column 12. -/
def genBit (g : Gen) (r : Fin 20) (c : Nat) : Bool := (g[r])[c]?.getD false

/-- R12: `XOR_{c=0}^{n−1} t(c)`; "it is 0 when a = b". -/
def xorSum : Nat → (Nat → Bool) → Bool
  | 0, _ => false
  | n + 1, t => xorSum n t ^^ t n

/-- R70: `EncodeCore(L, d)[r] = XOR_{col=0}^{L−1} ( GEN[r][13 − L + col] & d[col] )`. -/
def encodeCore (g : Gen) (l : Nat) (d : List Bool) : Codeword :=
  Vector.ofFn fun r => xorSum l fun col => genBit g r (13 - l + col) && d.getD col false

/-- R42: `BE(i, L)[col] = (i >> (L − 1 − col)) & 1`, the L bits of i, the most significant first. -/
def be (i l : Nat) : List Bool := (List.range l).map fun col => i.testBit (l - 1 - col)

/-- R42: `IDX(d) = Σ_{col=0}^{L−1} d[col] · 2^(L − 1 − col)`. -/
def idx : List Bool → Nat
  | [] => 0
  | b :: d => b.toNat * 2 ^ d.length + idx d

/-- R110: the table of all 2^L codewords, entry i being `EncodeCore(L, BE(i, L))`. -/
def codewordTable (g : Gen) (l : Nat) : List Codeword :=
  (List.range (2 ^ l)).map fun i => encodeCore g l (be i l)

/-- R7: the named hypothesis `GEN_rank`. "for every L in SUPPORTED_L, the L columns 13−L .. 12 of GEN are linearly
independent over GF(2)": a combination of them that is zero in every row has no column in it. -/
def GenRank (g : Gen) : Prop :=
  ∀ l ∈ supportedLengths, ∀ t : Nat → Bool,
    (∀ r : Fin 20, xorSum l (fun col => genBit g r (13 - l + col) && t col) = false) → ∀ col < l, t col = false

end Sys2Proof.Machine
end

