-- ==== Sys2Proof/Machine/Channel.lean ====
section
/-! DEFINITION. The AWGN channel model: CHAN_CFG and TRANSMIT (42_awgn_channel.md). -/

namespace Sys2Proof.Machine

/-- R90, R100: `POW10(snr_db ⊘ 10)`, SNR_linear. -/
def snrLinear {α : Type} (N : Numerics α) (snrDb : α) : α := N.pow10 (N.div snrDb N.ten)

/-- R90: `sqrt(1 ⊘ (2 ⊗ lin))`, σ per axis. -/
def noiseSigma {α : Type} (N : Numerics α) (snrDb : α) : α :=
  N.sqrt (N.div N.one (N.mul N.two (snrLinear N snrDb)))

/-- R90: `CHAN.CFG snr_db, seed`. -/
def execChanCfg (s : State) : Host.Outcome State Fault Refusal :=
  perform (payloadShape .chanCfg) s fun p =>
    let snrDb := (numsOf p).headD reference.zero
    let seed := (seedsOf p).headD 0
    respond [] { s with chan := ⟨true, snrDb, noiseSigma reference snrDb, seed, 0⟩ }

/-- R91, R92: the symbols with their noise added, the first drawn sample having index `k`: per symbol one sample for the
real part, then one for the imaginary part. -/
def addNoise {α : Type} (N : Numerics α) (sample : Nat → α) : Nat → List (Cplx α) → List (Cplx α)
  | _, [] => []
  | k, s :: rest => ⟨N.add s.re (sample k), N.add s.im (sample (k + 1))⟩ :: addNoise N sample (k + 2) rest

/-- R91: `TRANSMIT {s}`. -/
def execTransmit (n : Nat) (s : State) : Host.Outcome State Fault Refusal :=
  perform (payloadShape (.transmit n)) s fun p =>
    if s.chan.valid = false then raise .notConfigured s
    else
      let y := addNoise reference (Config.noise s.chan.seed s.chan.sigma) s.chan.k (pairUp (numsOf p))
      respond (cplxItems y) { s with chan := { s.chan with k := s.chan.k + 2 * n } }

end Sys2Proof.Machine
end

