-- ==== Sys2Proof/Machine/Control.lean ====
section
/-! DEFINITION. Block control: RESET and the illegal command (45_block_control.md), and what a step is when the block
performs no command (60_exceptions.md R144; log 9). -/

namespace Sys2Proof.Machine

/-- R130: `RESET`. "Each register then holds the value of 10_state.md rule R30. GEN is unchanged. FAULT is unchanged". -/
def execReset (s : State) : Host.Outcome State Fault Refusal :=
  perform (payloadShape .reset) s fun _ =>
    respond [] { s with enc := .reset, dec := .reset, chan := .reset }

/-- R131: an illegal word "carries an empty payload" and answers ILLEGAL_COMMAND. -/
def performIllegal (s : State) : Host.Outcome State Fault Refusal :=
  perform [] s fun _ => raise .illegalCommand s

/-- R27, R144: "the faulted block takes no further step". -/
def stopFaulted (f : Fault) : Host.Outcome State Fault Refusal := .fault f

/-- Nothing stands at the port: the block waits for the host, and nothing changes (log 9). -/
def waitForHost (s : State) : Host.Outcome State Fault Refusal := .next s

end Sys2Proof.Machine
end

