-- ==== Sys2Proof/Machine/Decoder.lean ====
section
/-! DEFINITION. The exhaustive maximum-likelihood decoder: DEC_CFG and DECODE (44_ml_decoder.md). -/

namespace Sys2Proof.Machine

/-- R110: `DEC.CFG L`. -/
def execDecCfg (l : Nat) (s : State) : Host.Outcome State Fault Refusal :=
  perform (payloadShape (.decCfg l)) s fun _ =>
    if l ∉ supportedLengths then raise .invalidConfiguration s
    else respond [] { s with dec := ⟨true, BitVec.ofNat 8 l, codewordTable s.gen l⟩ }

/-- R112: from `acc`, position by position, `acc ⊕ ((c[j] = 1) ? llr[j] : neg(llr[j]))`. -/
def metricFrom {α : Type} (N : Numerics α) (acc : α) : List Bool → List α → α
  | c :: cs, x :: xs => metricFrom N (N.add acc (if c then x else N.neg x)) cs xs
  | _, _ => acc

/-- R112: `Metric(c, llr)`, positions ascending from a sum of 0. -/
def metric {α : Type} (N : Numerics α) (c : Codeword) (llr : List α) : α :=
  metricFrom N N.zero c.toList llr

/-- R113: the scan from index `i` on, `best` and `bi` being the greatest metric so far and its index. -/
def searchFrom {α : Type} (N : Numerics α) : List α → (i : Nat) → (best : α) → (bi : Nat) → Nat
  | [], _, _, bi => bi
  | m :: ms, i, best, bi => if N.gt m best then searchFrom N ms (i + 1) m i else searchFrom N ms (i + 1) best bi

/-- R113: `Search(m)`, from `(NEG_INF, 0)` over ascending indices with strict greater-than. -/
def search {α : Type} (N : Numerics α) (ms : List α) : Nat := searchFrom N ms 0 N.negInf 0

/-- R111: the metrics of all entries of the table. -/
def metrics {α : Type} (N : Numerics α) (table : List Codeword) (llr : List α) : List α :=
  table.map fun c => metric N c llr

/-- R111: `DECODE {llr}`. -/
def execDecode (n : Nat) (s : State) : Host.Outcome State Fault Refusal :=
  perform (payloadShape (.decode n)) s fun p =>
    if s.dec.valid = false then raise .notConfigured s
    else if n ≠ codewordLength then raise .invalidInput s
    else
      let m := metrics reference s.dec.table (numsOf p)
      if m.any reference.isNaN then raiseFault .nanMetric s
      else respond ((be (search reference m) s.dec.l.toNat).map bitItem) s

end Sys2Proof.Machine
end

