-- ==== Sys2Proof/Machine/Demodulator.lean ====
section
/-! DEFINITION. The QPSK demodulator: DEMODULATE (43_qpsk_demodulator.md). -/

namespace Sys2Proof.Machine

/-- R100: `scale <- (2 ⊗ sqrt(2)) ⊗ lin`. -/
def llrScale {α : Type} (N : Numerics α) (snrDb : α) : α :=
  N.mul (N.mul N.two (N.sqrt N.two)) (snrLinear N snrDb)

/-- R100: `neg(scale ⊗ re)`, then `neg(scale ⊗ im)`, symbol by symbol. -/
def softValues {α : Type} (N : Numerics α) (scale : α) : List (Cplx α) → List α
  | [] => []
  | s :: rest => N.neg (N.mul scale s.re) :: N.neg (N.mul scale s.im) :: softValues N scale rest

/-- R100: `DEMOD snr_db, {s}`. -/
def execDemodulate (n : Nat) (s : State) : Host.Outcome State Fault Refusal :=
  perform (payloadShape (.demodulate n)) s fun p =>
    let snrDb := (numsOf p).headD reference.zero
    let symbols := pairUp (numsOf p).tail
    respond ((softValues reference (llrScale reference snrDb) symbols).map .num) s

end Sys2Proof.Machine
end

