-- ==== Sys2Proof/Machine/Encoder.lean ====
section
/-! DEFINITION. The linear block encoder: ENC_CFG and ENCODE (40_encoder.md). -/

namespace Sys2Proof.Machine

/-- R71: `ENC_CFG L`. -/
def execEncCfg (l : Nat) (s : State) : Host.Outcome State Fault Refusal :=
  perform (payloadShape (.encCfg l)) s fun _ =>
    if l ∉ supportedLengths then raise .invalidConfiguration s
    else respond [] { s with enc := ⟨true, BitVec.ofNat 8 l⟩ }

/-- R72: the element is in {0, 1}. -/
def isBinary (b : Byte) : Bool := b == 0 || b == 1

/-- R72: `ENCODE {d}`. -/
def execEncode (n : Nat) (s : State) : Host.Outcome State Fault Refusal :=
  perform (payloadShape (.encode n)) s fun p =>
    let d := bitsOf p
    if s.enc.valid = false then raise .notConfigured s
    else if n ≠ s.enc.l.toNat then raise .invalidInput s
    else if d.all isBinary = false then raise .invalidInput s
    else respond ((encodeCore s.gen s.enc.l.toNat (d.map (· == 1))).toList.map bitItem) s

end Sys2Proof.Machine
end

