-- ==== Sys2Proof/Machine/Modulator.lean ====
section
/-! DEFINITION. The QPSK modulator: MODULATE (41_qpsk_modulator.md). -/

namespace Sys2Proof.Machine

/-- R80: one axis of a symbol, `(b = 0) ? AMP : neg(AMP)`; any other BitItem than 0 maps as a 1 (I6). -/
def axis {α : Type} (N : Numerics α) (amplitude : α) (b : Byte) : α :=
  if b = 0 then amplitude else N.neg amplitude

/-- R80: the symbols of the bit pairs, "msb drives the real part", "lsb drives the imaginary part". -/
def mapSymbols {α : Type} (N : Numerics α) (amplitude : α) : List Byte → List (Cplx α)
  | msb :: lsb :: rest => ⟨axis N amplitude msb, axis N amplitude lsb⟩ :: mapSymbols N amplitude rest
  | _ => []

/-- R80: `MOD {b}`. -/
def execModulate (n : Nat) (s : State) : Host.Outcome State Fault Refusal :=
  perform (payloadShape (.modulate n)) s fun p =>
    if n % 2 ≠ 0 then raise .invalidInput s
    else respond (cplxItems (mapSymbols reference amp (bitsOf p))) s

end Sys2Proof.Machine
end

