-- ==== Sys2Proof/Machine/Dispatch.lean ====
section
/-! DEFINITION. What each instruction does: one arm per constructor of Instr (30_encoding.md R52). -/

namespace Sys2Proof.Machine

def exec (i : Instr) (s : State) : Host.Outcome State Fault Refusal :=
  match i with
  | .encCfg l => Sys2Proof.Machine.execEncCfg l s
  | .encode n => Sys2Proof.Machine.execEncode n s
  | .modulate n => Sys2Proof.Machine.execModulate n s
  | .chanCfg => Sys2Proof.Machine.execChanCfg s
  | .transmit n => Sys2Proof.Machine.execTransmit n s
  | .demodulate n => Sys2Proof.Machine.execDemodulate n s
  | .decCfg l => Sys2Proof.Machine.execDecCfg l s
  | .decode n => Sys2Proof.Machine.execDecode n s
  | .reset => Sys2Proof.Machine.execReset s

end Sys2Proof.Machine
end

