-- ==== Sys2Proof/Machine/Step.lean ====
section
/-! DEFINITION. One step of the block: it performs the next transaction of the host (30_encoding.md R50, R57; 20_memory.md
R46). -/

namespace Sys2Proof.Machine

/-- A faulted block takes no step (R27). Otherwise the block takes the host's next command word, decodes it (R57) and
performs the command, or the illegal-command response where the word is ILLEGAL (R131); with no word at the port it waits. -/
def step (s : State) : Host.Outcome State Fault Refusal :=
  match s.fault with
  | some f => stopFaulted f
  | none =>
    match s.nextWord with
    | none => waitForHost s
    | some w =>
      match decodeCmd w with
      | .ok i => exec i s
      | .error _ => performIllegal s

/-- The transaction whose command word is the row's `nbits` bits `w`, with the payload of zeros that the word calls for, put
first at the port: the very next step performs it (log 14). -/
def State.withFetchWord (s : State) (nbits w : Nat) : State :=
  s.issueFirst ⟨BitVec.ofNat 32 (w % 2 ^ nbits), zeroPayload (BitVec.ofNat 32 (w % 2 ^ nbits))⟩

end Sys2Proof.Machine
end

