-- ==== Sys2Proof/Machine/Assembler.lean ====
section
/-! DEFINITION. The HOST's side of the port: the assembler lines and the macros of 30_encoding.md R61 and R62, as data and
functions that issue transactions and read responses (log 18). No part of the block; `step` uses nothing of it. -/

namespace Sys2Proof.Machine

/-- R61: a NUM literal. -/
inductive NumLit where
  /-- the decimal real number `±digits / 10^places` -/
  | decimal (negative : Bool) (digits places : Nat)
  | inf
  | negInf
  | nan
  | amp
  | negAmp
deriving DecidableEq, Repr

/-- R61: the value a NUM literal is read as, in the reference configuration. -/
def NumLit.value : NumLit → Num64
  | .decimal negative digits places => Binary64.ofDecimal negative digits places
  | .inf => 0x7FF0000000000000
  | .negInf => 0xFFF0000000000000
  | .nan => 0x7FF8000000000000
  | .amp => Sys2Proof.Machine.amp
  | .negAmp => reference.neg Sys2Proof.Machine.amp

/-- R61: one line, with the values its literals or names stand for. -/
inductive Line where
  | encCfg (l : Byte)
  | encode (d : List Byte)
  | mod (b : List Byte)
  | chanCfg (snrDb : Num64) (seed : Seed)
  | transmit (s : List (Cplx Num64))
  | demod (snrDb : Num64) (s : List (Cplx Num64))
  | decCfg (l : Byte)
  | decode (llr : List Num64)
  | reset
  | word (w : Word)
deriving DecidableEq, Repr

/-- `N<<16` (R61): "N is the number of elements written"; no word holds more than 65535 (D26). -/
def countBits (n : Nat) : Word := BitVec.ofNat 32 n <<< 16

/-- `L<<8` (R61). -/
def lengthBits (l : Byte) : Word := BitVec.setWidth 32 l <<< 8

/-- R61: the transaction a line assembles to. -/
def Line.assemble : Line → Transaction
  | .encCfg l => ⟨0x00000001 ||| lengthBits l, []⟩
  | .encode d => ⟨0x00000002 ||| countBits d.length, d.map .bit⟩
  | .mod b => ⟨0x00000003 ||| countBits b.length, b.map .bit⟩
  | .chanCfg snrDb seed => ⟨0x00000004, [.num snrDb, .seed seed]⟩
  | .transmit s => ⟨0x00000005 ||| countBits s.length, cplxItems s⟩
  | .demod snrDb s => ⟨0x00000006 ||| countBits s.length, .num snrDb :: cplxItems s⟩
  | .decCfg l => ⟨0x00000007 ||| lengthBits l, []⟩
  | .decode llr => ⟨0x00000008 ||| countBits llr.length, llr.map .num⟩
  | .reset => ⟨0x0000000F, []⟩
  | .word w => ⟨w, []⟩

/-- The instruction a line's word stands for; a `.word` line is read by the decoder. -/
def Line.instr : Line → Option Instr
  | .encCfg l => some (.encCfg l.toNat)
  | .encode d => some (.encode d.length)
  | .mod b => some (.modulate b.length)
  | .chanCfg _ _ => some .chanCfg
  | .transmit s => some (.transmit s.length)
  | .demod _ s => some (.demodulate s.length)
  | .decCfg l => some (.decCfg l.toNat)
  | .decode llr => some (.decode llr.length)
  | .reset => some .reset
  | .word _ => none

/-- R165: the host issues a line to a block at whose port nothing stands, and waits for the response: the block's state
after it and the response, or nothing where the block takes no step or sends no response. -/
def ask (line : Line) (s : State) : Option (State × Response) :=
  match s.pending with
  | _ :: _ => none
  | [] =>
    match step (s.issueFirst line.assemble) with
    | .next t =>
      match t.responses.drop s.responses.length with
      | [r] => some (t, r)
      | _ => none
    | .fault _ => none
    | .refused _ => none

/-- `line -> name` (R61): the result items of a line that is answered OK. -/
def askOk (line : Line) (s : State) : Option (State × List Item) :=
  match ask line s with
  | some (t, r) => if r.status = Status.ok.code then some (t, r.items) else none
  | none => none

/-- R62: `encmod L, {d}`; "Its result is `s`", the symbols. -/
def encmod (l : Byte) (d : List Byte) (s : State) : Option (State × List (Cplx Num64)) := do
  let (s, _) ← askOk (.encCfg l) s
  let (s, c) ← askOk (.encode d) s
  let (s, y) ← askOk (.mod (bitsOf c)) s
  return (s, pairUp (numsOf y))

/-- R62: `demdec L, {s}`; "Its result is `d`". "The 0.0 comes from the source". -/
def demdec (l : Byte) (symbols : List (Cplx Num64)) (s : State) : Option (State × List Byte) := do
  let (s, _) ← askOk (.decCfg l) s
  let (s, llr) ← askOk (.demod reference.zero symbols) s
  let (s, d) ← askOk (.decode (numsOf llr)) s
  return (s, bitsOf d)

/-- R62: what the host issues once, "Before the first trial". -/
def simSetup (l : Byte) (snrDb : Num64) (s : State) : Option State := do
  let (s, _) ← askOk (.encCfg l) s
  let (s, _) ← askOk (.decCfg l) s
  let (s, _) ← askOk (.chanCfg snrDb Config.defaultSeed) s
  return s

/-- R62: `simstep {d}, snr_db`, one trial; its result is the decoded vector `e`. -/
def simstep (d : List Byte) (snrDb : Num64) (s : State) : Option (State × List Byte) := do
  let (s, c) ← askOk (.encode d) s
  let (s, x) ← askOk (.mod (bitsOf c)) s
  let (s, y) ← askOk (.transmit (pairUp (numsOf x))) s
  let (s, llr) ← askOk (.demod snrDb (pairUp (numsOf y))) s
  let (s, e) ← askOk (.decode (numsOf llr)) s
  return (s, bitsOf e)

/-- R62: "The trial counts as a success when e = d, and as a failure otherwise." -/
def trialSucceeds (d e : List Byte) : Bool := e == d

end Sys2Proof.Machine
end

