-- ==== Sys2Proof/Safety.lean ====
section
/-! DEFINITION. What a good run is, and the invariants of the block: the terms the statements use (60_exceptions.md R144,
10_state.md R22 to R24). -/

namespace Sys2Proof.Machine

/-- R144: "A faulted state is never a good end of a run." -/
def GoodRun (k : Nat) (s t : State) : Prop :=
  Sys2Proof.core.run k s = .next t ∧ t.fault = none

/-- R22: ENC.L is in "SUPPORTED_L when ENC.VALID = 1". -/
def EncLegal (s : State) : Prop := s.enc.valid = true → s.enc.l.toNat ∈ supportedLengths

/-- R23, R24: DEC.L is in SUPPORTED_L when DEC.VALID = 1, and then the table holds exactly 2^DEC.L entries,
`DEC.TABLE[i] = EncodeCore(DEC.L, BE(i, DEC.L))`. -/
def DecLegal (s : State) : Prop :=
  s.dec.valid = true →
    s.dec.l.toNat ∈ supportedLengths ∧
    s.dec.table.length = 2 ^ s.dec.l.toNat ∧
    ∀ i < 2 ^ s.dec.l.toNat, s.dec.table[i]? = some (encodeCore s.gen s.dec.l.toNat (be i s.dec.l.toNat))

/-- R30: an unconfigured decoder's table is empty. -/
def TableEmptyUnlessConfigured (s : State) : Prop := s.dec.valid = false → s.dec.table = []

/-- R140, R56: "Codes 0x05..0xFF are never sent", and after a status other than OK "no item follows". -/
def ResponsesLegal (s : State) : Prop :=
  ∀ r ∈ s.responses, r.status.toNat ≤ 4 ∧ (r.status ≠ Status.ok.code → r.items = [])

/-- The architectural registers the host's commands write: all of the block's state but the port (R20). -/
def SameRegisters (s t : State) : Prop :=
  t.gen = s.gen ∧ t.enc = s.enc ∧ t.dec = s.dec ∧ t.chan = s.chan ∧ t.fault = s.fault

/-- The host's transaction is over and its response has been sent, after those sent before (R50, R56). -/
def Answered (s t : State) (status : Byte) (items : List Item) : Prop :=
  t.pending = s.pending.tail ∧ t.responses = s.responses ++ [⟨status, items⟩]

/-! ## What a binary64 word stands for (R8: "`⊕ ⊗ ⊘ sqrt` are correctly rounded") -/

/-- The word is a number, not an infinity and not a NaN. -/
def Binary64.isFinite (x : Num64) : Bool := decide (Binary64.magnitude x < Binary64.infBits)

/-- The rational number a finite word stands for. -/
def Binary64.value (x : Num64) : ℚ :=
  (if Binary64.sign x then -1 else 1) * (Binary64.mant x * 2 ^ Binary64.quantum x) / 2 ^ 1074

/-- `r` is the real number `exact` rounded by roundTiesToEven: never a NaN; an infinity of the number's sign exactly from
halfway between the greatest finite number and 2^1024 on; otherwise no finite number is nearer than `r`, and where another
is as near, the last significand bit of `r` is 0. -/
def Binary64.RoundsTo (exact : ℝ) (r : Num64) : Prop :=
  Binary64.isNaN r = false ∧
  (Binary64.isInf r = true ↔ (2 ^ 1024 - 2 ^ 970 : ℝ) ≤ |exact|) ∧
  (Binary64.isInf r = true → (Binary64.sign r = true ↔ exact < 0)) ∧
  (Binary64.isFinite r = true → ∀ z : Num64, Binary64.isFinite z = true →
    |(Binary64.value r : ℝ) - exact| ≤ |(Binary64.value z : ℝ) - exact| ∧
    (|(Binary64.value r : ℝ) - exact| = |(Binary64.value z : ℝ) - exact| →
      Binary64.value z ≠ Binary64.value r → Binary64.mant r % 2 = 0))

end Sys2Proof.Machine
end

