-- ==== Sys2Proof/Certificates/Slice0/Obligations.lean ====
section
/-! DEFINITION. The statements about the block, one per rule or group of rules of spec/. -/

namespace Sys2Proof.Statements

open Sys2Proof Sys2Proof.Machine

/-- R57: the `case op of` of decodeCmd on the four fields as naturals; `none` is ILLEGAL. -/
def caseTable (op rsv l n : Nat) : Option Instr :=
  if rsv ≠ 0 then none
  else if op = 0x1 then (if n = 0 then some (.encCfg l) else none)
  else if op = 0x2 then (if l = 0 then some (.encode n) else none)
  else if op = 0x3 then (if l = 0 then some (.modulate n) else none)
  else if op = 0x4 then (if l = 0 ∧ n = 0 then some .chanCfg else none)
  else if op = 0x5 then (if l = 0 then some (.transmit n) else none)
  else if op = 0x6 then (if l = 0 then some (.demodulate n) else none)
  else if op = 0x7 then (if n = 0 then some (.decCfg l) else none)
  else if op = 0x8 then (if l = 0 then some (.decode n) else none)
  else if op = 0xF then (if l = 0 ∧ n = 0 then some .reset else none)
  else none

/-- R58: the words that are illegal. -/
def IsIllegalWord (w : Word) : Prop :=
  let op := w.toNat % 16
  let rsv := w.toNat / 16 % 16
  let l := w.toNat / 256 % 256
  let n := w.toNat / 65536
  op = 0x0 ∨ (0x9 ≤ op ∧ op ≤ 0xE) ∨ rsv ≠ 0 ∨
    (l ≠ 0 ∧ op ≠ 0x1 ∧ op ≠ 0x7) ∨ (n ≠ 0 ∧ (op = 0x1 ∨ op = 0x4 ∨ op = 0x7 ∨ op = 0xF))

/-- R55: the request payload of each command. -/
def IsRequestPayload : Instr → List Item → Prop
  | .encCfg _, p => p = []
  | .encode n, p => ∃ d : List Byte, d.length = n ∧ p = d.map .bit
  | .modulate n, p => ∃ b : List Byte, b.length = n ∧ p = b.map .bit
  | .chanCfg, p => ∃ (snrDb : Num64) (seed : Seed), p = [.num snrDb, .seed seed]
  | .transmit n, p => ∃ y : List (Cplx Num64), y.length = n ∧ p = y.flatMap fun c => [.num c.re, .num c.im]
  | .demodulate n, p => ∃ (snrDb : Num64) (y : List (Cplx Num64)), y.length = n ∧
      p = .num snrDb :: y.flatMap fun c => [.num c.re, .num c.im]
  | .decCfg _, p => p = []
  | .decode n, p => ∃ x : List Num64, x.length = n ∧ p = x.map .num
  | .reset, p => p = []

/-- R141, R142: the status a command answers with, by the first cause that applies; `none` is the model fault. -/
def statusOf (s : State) : Instr → Option Byte
  | .encCfg l => some (if l ∈ [2, 4, 6, 8, 11] then 0x00 else 0x01)
  | .encode n => some (
      if s.enc.valid = false then 0x03
      else if n ≠ s.enc.l.toNat ∨ ∃ b ∈ bitsOf s.payload, b ≠ 0 ∧ b ≠ 1 then 0x02 else 0x00)
  | .modulate n => some (if n % 2 = 1 then 0x02 else 0x00)
  | .chanCfg => some 0x00
  | .transmit _ => some (if s.chan.valid = false then 0x03 else 0x00)
  | .demodulate _ => some 0x00
  | .decCfg l => some (if l ∈ [2, 4, 6, 8, 11] then 0x00 else 0x01)
  | .decode n =>
      if s.dec.valid = false then some 0x03
      else if n ≠ 20 then some 0x02
      else if ∃ c ∈ s.dec.table, reference.isNaN (metric reference c (numsOf s.payload)) = true then none
      else some 0x00
  | .reset => some 0x00

/-- R80: AMP or neg(AMP), as the bit is 0 or not. -/
def axisOf (b : Byte) : Num64 := if b = 0 then amp else reference.neg amp

/-- R100: the scale `(2 ⊗ sqrt(2)) ⊗ POW10(snr_db ⊘ 10)`. -/
def scaleOf (snrDb : Num64) : Num64 :=
  reference.mul (reference.mul reference.two (reference.sqrt reference.two))
    (reference.pow10 (reference.div snrDb reference.ten))

/-- R90: `sqrt(1 ⊘ (2 ⊗ POW10(snr_db ⊘ 10)))`. -/
def sigmaOf (snrDb : Num64) : Num64 :=
  reference.sqrt (reference.div reference.one
    (reference.mul reference.two (reference.pow10 (reference.div snrDb reference.ten))))

/-- R61: a line's word is read as the instruction `i`, and its payload is `p`, which is the request payload of `i`. -/
def AssemblesTo (line : Line) (i : Instr) (p : List Item) : Prop :=
  line.instr = some i ∧ decodeCmd line.assemble.word = .ok i ∧ line.assemble.payload = p ∧ IsRequestPayload i p

/-- +∞ and −∞ in the reference configuration (R61). -/
def plusInf : Num64 := 0x7FF0000000000000
def minusInf : Num64 := 0xFFF0000000000000

end Sys2Proof.Statements

open Sys2Proof Sys2Proof.Machine Sys2Proof.Statements

/-! ## Encoding -/

/-- V-CD-1 (95_test_vectors.md), a word of each row of R53 and one of each kind of R58. -/
def Obligations.TabledWordsDecode : Prop :=
  decodeCmd 0x00000201 = .ok (.encCfg 2) ∧ decodeCmd 0x0000FF01 = .ok (.encCfg 255) ∧
  decodeCmd 0x00020002 = .ok (.encode 2) ∧ decodeCmd 0x00140003 = .ok (.modulate 20) ∧
  decodeCmd 0x00000004 = .ok .chanCfg ∧ decodeCmd 0x000A0005 = .ok (.transmit 10) ∧
  decodeCmd 0x000A0006 = .ok (.demodulate 10) ∧ decodeCmd 0x00000207 = .ok (.decCfg 2) ∧
  decodeCmd 0x00140008 = .ok (.decode 20) ∧ decodeCmd 0x0000000F = .ok .reset ∧
  decodeCmd 0x00010001 = .error .unusedField ∧ decodeCmd 0x00000009 = .error .reservedOpcode ∧
  decodeCmd 0xFFFFFFFF = .error .reservedBits

/-- R57: decodeCmd is the case table on OP = w[3:0], RSV = w[7:4], L = w[15:8], N = w[31:16], for every word. -/
def Obligations.DecodeFollowsTheCaseTable : Prop :=
  ∀ w : Word, (decodeCmd w).toOption =
    caseTable (w.toNat % 16) (w.toNat / 16 % 16) (w.toNat / 256 % 256) (w.toNat / 65536)

/-- What R57 infers from R53: a word is an instruction exactly when its row's `w & mask = match`, and ILLEGAL exactly when no
row matches. -/
def Obligations.DecodeAgreesWithTheMasks : Prop :=
  ∀ w : Word,
    (∀ m : String, (∃ i, decodeCmd w = .ok i ∧ i.mnemonic = m) ↔
      ∃ r ∈ opcodeRows, r.mnemonic = m ∧ w &&& r.mask = r.matchBits) ∧
    ((∃ e, decodeCmd w = .error e) ↔ ∀ r ∈ opcodeRows, w &&& r.mask ≠ r.matchBits)

/-- What R53 infers: "No two rows match the same word". -/
def Obligations.NoWordMatchesTwoRows : Prop :=
  ∀ (w : Word) (r r' : Row), r ∈ opcodeRows → r' ∈ opcodeRows →
    w &&& r.mask = r.matchBits → w &&& r'.mask = r'.matchBits → r = r'

/-- Every instruction that has a command word is read back from it, with every value of its field. -/
def Obligations.DecodingAnEncodedInstructionGivesItBack : Prop :=
  ∀ i : Instr, i.wf = true → decodeCmd (encode i) = .ok i

/-- Every word that decodes is the one command word of a well-formed instruction: no bit of it is dropped. -/
def Obligations.EncodingADecodedWordGivesItBack : Prop :=
  ∀ (w : Word) (i : Instr), decodeCmd w = .ok i → i.wf = true ∧ encode i = w

/-- R58, R131: the illegal words are these, and each, with its empty payload, answers ILLEGAL_COMMAND and changes no
register, whatever the configuration. -/
def Obligations.IllegalWordsAnswerIllegalCommand : Prop :=
  ∀ w : Word, ((∃ e, decodeCmd w = .error e) ↔ IsIllegalWord w) ∧
    ∀ s rest, IsIllegalWord w → s.fault = none → s.pending = ⟨w, []⟩ :: rest →
      ∃ t, step s = .next t ∧ SameRegisters s t ∧ Answered s t 0x04 []

/-- R61, the table row by row: the command each line's word is, with its L or its count N, and its payload, the literals of
the line in the order written (R41: element 0 first; a Cplx re then im, log 15). No word holds a count above 65535. -/
def Obligations.LinesAssembleToTheirCommands : Prop :=
  (∀ l : Byte, AssemblesTo (.encCfg l) (.encCfg l.toNat) [] ∧ AssemblesTo (.decCfg l) (.decCfg l.toNat) []) ∧
  (∀ d : List Byte, d.length < 65536 →
    AssemblesTo (.encode d) (.encode d.length) (d.map .bit) ∧ AssemblesTo (.mod d) (.modulate d.length) (d.map .bit)) ∧
  (∀ (snrDb : Num64) (seed : Seed), AssemblesTo (.chanCfg snrDb seed) .chanCfg [.num snrDb, .seed seed]) ∧
  (∀ (snrDb : Num64) (y : List (Cplx Num64)), y.length < 65536 →
    AssemblesTo (.transmit y) (.transmit y.length) (y.flatMap fun c => [.num c.re, .num c.im]) ∧
    AssemblesTo (.demod snrDb y) (.demodulate y.length) (.num snrDb :: y.flatMap fun c => [.num c.re, .num c.im])) ∧
  (∀ x : List Num64, x.length < 65536 → AssemblesTo (.decode x) (.decode x.length) (x.map .num)) ∧
  AssemblesTo .reset .reset [] ∧
  ∀ w : Word, (Line.word w).assemble.word = w ∧ (Line.word w).assemble.payload = []

/-! ## Steps and transactions -/

/-- R50, R57: at an unfaulted block, a step performs the command of the word that the host issued. -/
def Obligations.StepPerformsTheDecodedCommand : Prop :=
  ∀ (s : State) (t : Transaction) (rest : List Transaction) (i : Instr),
    s.fault = none → s.pending = t :: rest → decodeCmd t.word = .ok i → step s = exec i s

/-- With nothing at the port an unfaulted block waits (the model's choice, log 9). -/
def Obligations.IdleBlockWaits : Prop :=
  ∀ s : State, s.fault = none → s.pending = [] → step s = .next s

/-- R59: a command is performed exactly on a payload of the shape R55 gives; the model gives any other transaction no step,
an illegal word with a payload included (as the refusal notAdmitted, log 10). -/
def Obligations.OnlyAdmittedTransactionsGetAStep : Prop :=
  (∀ (i : Instr) (s : State),
    (IsRequestPayload i s.payload → ∃ t, exec i s = .next t) ∧
    (¬ IsRequestPayload i s.payload → exec i s = .refused .notAdmitted)) ∧
  ∀ (s : State) (t : Transaction) (rest : List Transaction), s.fault = none → s.pending = t :: rest →
    IsIllegalWord t.word → t.payload ≠ [] → step s = .refused .notAdmitted

/-- What R166 infers: an admitted command ends with one response, or with the model fault and no response; its transaction is
over (for the faulting DECODE that is the model's choice, log 11). -/
def Obligations.EveryAdmittedCommandEnds : Prop :=
  ∀ (i : Instr) (s : State), IsRequestPayload i s.payload →
    ∃ t, exec i s = .next t ∧ t.pending = s.pending.tail ∧
      ((∃ r, t.responses = s.responses ++ [r] ∧ t.fault = s.fault) ∨
       (t.responses = s.responses ∧ t.fault = some .nanMetric))

/-- R141, R142: the status each command answers with, the first cause that applies deciding; an illegal word always answers
ILLEGAL_COMMAND, whatever the state. -/
def Obligations.EachCommandAnswersItsTabledStatus : Prop :=
  (∀ (i : Instr) (s t : State), exec i s = .next t →
    match statusOf s i with
    | some c => ∃ items, t.responses = s.responses ++ [⟨c, items⟩] ∧ t.fault = s.fault
    | none => t.responses = s.responses ∧ t.fault = some .nanMetric) ∧
  ∀ (s t : State) (tr : Transaction) (rest : List Transaction), s.pending = tr :: rest →
    (∃ e, decodeCmd tr.word = .error e) → step s = .next t → t.responses = s.responses ++ [⟨0x04, []⟩]

/-- R143: a step that answers a status other than OK writes no register of the block. -/
def Obligations.NonOkStatusWritesNoState : Prop :=
  ∀ (s t : State) (r : Response), step s = .next t → t.responses = s.responses ++ [r] → r.status ≠ 0x00 →
    SameRegisters s t ∧ r.items = []

/-- R27: "Once set, it is never cleared, not even by RESET, and the faulted block takes no further step." -/
def Obligations.FaultIsNeverClearedAndStopsTheBlock : Prop :=
  ∀ (s : State) (f : Fault), s.fault = some f →
    (∀ (i : Instr) (t : State), exec i s = .next t → t.fault = some f) ∧
    (∀ k : Nat, Sys2Proof.core.run (k + 1) s = .fault f)

/-! ## The encoder -/

/-- R71: ENC_CFG, its word, its effect on a supported length, and on any other. -/
def Obligations.EncCfgSetsOrKeepsTheEncoder : Prop :=
  ∀ (l : Nat) (s : State),
    (l < 256 → decodeCmd (BitVec.ofNat 32 (0x00000001 + l * 2 ^ 8)) = .ok (.encCfg l)) ∧
    (s.payload = [] → l ∈ [2, 4, 6, 8, 11] →
      ∃ t, exec (.encCfg l) s = .next t ∧ Answered s t 0x00 [] ∧ t.enc.valid = true ∧ t.enc.l.toNat = l ∧
        t.gen = s.gen ∧ t.dec = s.dec ∧ t.chan = s.chan ∧ t.fault = s.fault) ∧
    (s.payload = [] → l ∉ [2, 4, 6, 8, 11] →
      ∃ t, exec (.encCfg l) s = .next t ∧ Answered s t 0x01 [] ∧ SameRegisters s t)

/-- R72, R70: ENCODE, its word, its errors, and its answer: codeword bit r is the parity of the columns 13 − L + col that
the information elements select in row r. -/
def Obligations.EncodeAnswersTheCodeword : Prop :=
  ∀ (n : Nat) (d : List Byte) (s : State),
    (n < 65536 → decodeCmd (BitVec.ofNat 32 (0x00000002 + n * 2 ^ 16)) = .ok (.encode n)) ∧
    (d.length = n → s.payload = d.map .bit →
      (s.enc.valid = false → ∃ t, exec (.encode n) s = .next t ∧ Answered s t 0x03 [] ∧ SameRegisters s t) ∧
      (s.enc.valid = true → (n ≠ s.enc.l.toNat ∨ ∃ b ∈ d, b ≠ 0 ∧ b ≠ 1) →
        ∃ t, exec (.encode n) s = .next t ∧ Answered s t 0x02 [] ∧ SameRegisters s t) ∧
      (s.enc.valid = true → n = s.enc.l.toNat → (∀ b ∈ d, b = 0 ∨ b = 1) →
        ∃ (t : State) (cw : List Bool), exec (.encode n) s = .next t ∧
          Answered s t 0x00 (cw.map fun b => .bit (if b then 1 else 0)) ∧ SameRegisters s t ∧ cw.length = 20 ∧
          ∀ r : Fin 20, cw[r.val]? = some (decide
            ((List.range n).countP (fun col => genBit s.gen r (13 - n + col) && d.getD col 0 == 1) % 2 = 1))))

/-- R73: the zero vector gives the zero codeword, and a single set bit reproduces its column. -/
def Obligations.ZeroAndUnitVectorsEncodeToZeroAndColumns : Prop :=
  ∀ (g : Gen) (l : Nat), l ∈ supportedLengths →
    (∀ r : Fin 20, (encodeCore g l (List.replicate l false))[r] = false) ∧
    ∀ col < l, ∀ r : Fin 20, (encodeCore g l ((List.range l).map (· == col)))[r] = genBit g r (13 - l + col)

/-- What R74 infers from R70 and R7: coding is linear over GF(2), and injective on the vectors of length L where GEN_rank
holds. -/
def Obligations.CodingIsLinearAndInjective : Prop :=
  ∀ (g : Gen) (l : Nat) (d d' : List Bool), l ∈ supportedLengths → d.length = l → d'.length = l →
    (∀ r : Fin 20, (encodeCore g l (List.zipWith xor d d'))[r] = xor (encodeCore g l d)[r] (encodeCore g l d')[r]) ∧
    (GenRank g → encodeCore g l d = encodeCore g l d' → d = d')

/-! ## The modulator -/

/-- R80: MODULATE, its word, its error on an odd count, and its answer: the NUM items are AMP or neg(AMP) bit by bit, so
symbol k is made of bits 2k and 2k+1, for every BitItem value; any value but 0 maps as a 1. -/
def Obligations.ModulateAnswersTheSymbols : Prop :=
  ∀ (n : Nat) (b : List Byte) (s : State),
    (n < 65536 → decodeCmd (BitVec.ofNat 32 (0x00000003 + n * 2 ^ 16)) = .ok (.modulate n)) ∧
    (b.length = n → s.payload = b.map .bit →
      (n % 2 = 1 → ∃ t, exec (.modulate n) s = .next t ∧ Answered s t 0x02 [] ∧ SameRegisters s t) ∧
      (n % 2 = 0 → ∃ t, exec (.modulate n) s = .next t ∧ Answered s t 0x00 (b.map fun x => .num (axisOf x)) ∧
        SameRegisters s t))

/-- R82, in the reference configuration with its AMP (the model's choices of NUM and AMP, log 1 and log 2): the energy and the
modulus of each of the four symbols; both within 1e-9 of 1. -/
def Obligations.SymbolEnergyIsOneWithinTolerance : Prop :=
  ∀ re im : Byte,
    let energy := reference.add (reference.mul (axisOf re) (axisOf re)) (reference.mul (axisOf im) (axisOf im))
    amp = 0x3FE6A09E667F3BCC ∧ energy = 0x3FEFFFFFFFFFFFFE ∧ reference.sqrt energy = 0x3FEFFFFFFFFFFFFF ∧
    |Binary64.value energy - 1| ≤ 1 / 10 ^ 9 ∧ |Binary64.value (reference.sqrt energy) - 1| ≤ 1 / 10 ^ 9

/-! ## The channel -/

/-- R90: CHAN_CFG, its word and its effect; σ at the SNR values the rule names, σ where lin is +∞ and where it is 0, and σ
of a NaN. -/
def Obligations.ChanCfgStartsTheChannel : Prop :=
  decodeCmd 0x00000004 = .ok .chanCfg ∧
  (∀ (s : State) (snrDb : Num64) (seed : Seed), s.payload = [.num snrDb, .seed seed] →
    ∃ t, exec .chanCfg s = .next t ∧ Answered s t 0x00 [] ∧ t.chan.valid = true ∧ t.chan.snrDb = snrDb ∧
      t.chan.sigma = sigmaOf snrDb ∧ t.chan.seed = seed ∧ t.chan.k = 0 ∧
      t.gen = s.gen ∧ t.enc = s.enc ∧ t.dec = s.dec ∧ t.fault = s.fault) ∧
  reference.pow10 (reference.div 0x0000000000000000 reference.ten) = reference.one ∧
  sigmaOf 0x0000000000000000 = 0x3FE6A09E667F3BCD ∧ sigmaOf 0x4024000000000000 = 0x3FCC9F25C5BFEDD9 ∧
  ∀ x : Num64,
    (reference.pow10 (reference.div x reference.ten) = 0x7FF0000000000000 → sigmaOf x = 0x0000000000000000) ∧
    (reference.pow10 (reference.div x reference.ten) = 0x0000000000000000 → sigmaOf x = 0x7FF0000000000000) ∧
    (reference.isNaN x = true → reference.isNaN (sigmaOf x) = true)

/-- R91, R92: TRANSMIT, its word, its error, and its answer: NUM item j of the symbols gets sample CHAN.K + j, so symbol k
gets sample CHAN.K + 2k on its real part and CHAN.K + 2k + 1 on its imaginary part, and CHAN.K goes up by 2N. -/
def Obligations.TransmitAddsTheNoiseSamplesInOrder : Prop :=
  ∀ (n : Nat) (x : List Num64) (s : State),
    (n < 65536 → decodeCmd (BitVec.ofNat 32 (0x00000005 + n * 2 ^ 16)) = .ok (.transmit n)) ∧
    (x.length = 2 * n → s.payload = x.map .num →
      (s.chan.valid = false → ∃ t, exec (.transmit n) s = .next t ∧ Answered s t 0x03 [] ∧ SameRegisters s t) ∧
      (s.chan.valid = true → ∃ (t : State) (y : List Num64), exec (.transmit n) s = .next t ∧
        Answered s t 0x00 (y.map .num) ∧ y.length = 2 * n ∧
        (∀ (j : Nat) (v : Num64), x[j]? = some v →
          y[j]? = some (reference.add v (Config.noise s.chan.seed s.chan.sigma (s.chan.k + j)))) ∧
        t.chan = { s.chan with k := s.chan.k + 2 * n } ∧
        t.gen = s.gen ∧ t.enc = s.enc ∧ t.dec = s.dec ∧ t.fault = s.fault))

/-- What R91 infers: one sequence split across two TRANSMITs gives the same samples and leaves the same channel as one TRANSMIT of the
whole. -/
def Obligations.SplittingATransmitChangesNothing : Prop :=
  ∀ (s u : State) (a b : List (Cplx Num64)), s.fault = none → s.chan.valid = true →
    a.length + b.length < 65536 →
    s.pending = [(Line.transmit (a ++ b)).assemble] → u = { s with pending := [(Line.transmit a).assemble, (Line.transmit b).assemble] } →
    ∃ (s' u' : State) (ya yb : List Item),
      Sys2Proof.core.run 1 s = .next s' ∧ Sys2Proof.core.run 2 u = .next u' ∧ u'.chan = s'.chan ∧
      s'.responses = s.responses ++ [⟨0x00, ya ++ yb⟩] ∧ u'.responses = s.responses ++ [⟨0x00, ya⟩, ⟨0x00, yb⟩]

/-- R93: two unfaulted blocks, whatever their states, that get the same CHAN_CFG and then the same TRANSMITs give the same
responses, all OK. -/
def Obligations.NoiseIsReproducible : Prop :=
  ∀ (s u : State) (snrDb : Num64) (seed : Seed) (xs : List (List (Cplx Num64))),
    s.fault = none → u.fault = none → (∀ x ∈ xs, x.length < 65536) →
    s.pending = (Line.chanCfg snrDb seed).assemble :: xs.map (fun x => (Line.transmit x).assemble) →
    u.pending = s.pending →
    ∃ (s' u' : State) (rs : List Response),
      Sys2Proof.core.run (xs.length + 1) s = .next s' ∧ Sys2Proof.core.run (xs.length + 1) u = .next u' ∧
      s'.responses = s.responses ++ rs ∧ u'.responses = u.responses ++ rs ∧
      rs.length = xs.length + 1 ∧ ∀ r ∈ rs, r.status = 0x00

/-! ## The demodulator -/

/-- R100: DEMODULATE, its word and its answer: each NUM item x of the symbols gives neg(scale ⊗ x), in order; a zero under a
finite positive scale gives the zero of the opposite sign, a zero under an infinite scale a NaN, and a number under a scale
of 0 a zero. -/
def Obligations.DemodulateAnswersTheSoftValues : Prop :=
  ∀ (n : Nat) (snrDb : Num64) (x : List Num64) (s : State),
    (n < 65536 → decodeCmd (BitVec.ofNat 32 (0x00000006 + n * 2 ^ 16)) = .ok (.demodulate n)) ∧
    (x.length = 2 * n → s.payload = .num snrDb :: x.map .num →
      ∃ t, exec (.demodulate n) s = .next t ∧ SameRegisters s t ∧
        Answered s t 0x00 (x.map fun v => .num (reference.neg (reference.mul (scaleOf snrDb) v)))) ∧
    (Binary64.isFinite (scaleOf snrDb) = true → Binary64.sign (scaleOf snrDb) = false →
      reference.neg (reference.mul (scaleOf snrDb) 0x0000000000000000) = 0x8000000000000000 ∧
      reference.neg (reference.mul (scaleOf snrDb) 0x8000000000000000) = 0x0000000000000000) ∧
    (scaleOf snrDb = 0x7FF0000000000000 → ∀ v, Binary64.isZero v = true →
      reference.isNaN (reference.neg (reference.mul (scaleOf snrDb) v)) = true) ∧
    (scaleOf snrDb = 0x0000000000000000 → ∀ v, Binary64.isFinite v = true →
      Binary64.isZero (reference.neg (reference.mul (scaleOf snrDb) v)) = true)

/-- V-CH-1, V-DM-2, V-DM-3, V-DM-5 and V-DM-6: σ, and LLRs of a +AMP component and of ±0, at the SNR values where the spec
gives POW10, the NaN of an infinite scale on a zero component among them. They rest on the model's NUM, AMP and POW10 (log 1,
log 2, log 3). -/
def Obligations.ValuesAtTheTabledSnrs : Prop :=
  let llr := fun snrDb x => reference.neg (reference.mul (scaleOf snrDb) x)
  sigmaOf 0x4008000000000000 = 0x3FE004DC2AA42D94 ∧ sigmaOf 0xC014000000000000 = 0x3FF41E7284162A48 ∧
  sigmaOf 0xC024000000000000 = 0x4001E3779B97F4A8 ∧ sigmaOf 0x4034000000000000 = 0x3FB21A1851FF630A ∧
  sigmaOf 0x40AF400000000000 = 0x0000000000000000 ∧ sigmaOf 0xC0AF400000000000 = 0x7FF0000000000000 ∧
  scaleOf 0x0000000000000000 = 0x4006A09E667F3BCD ∧
  llr 0x0000000000000000 0x3FE6A09E667F3BCC = 0xC000000000000000 ∧
  llr 0x0000000000000000 0x3FE6A09E667F3BCD = 0xC000000000000001 ∧
  llr 0x3FF0000000000000 0x3FE6A09E667F3BCC = 0xC004248EF8FC2604 ∧
  llr 0x4008000000000000 0x3FE6A09E667F3BCC = 0xC00FEC982D5BB8AF ∧
  llr 0x4024000000000000 0x3FE6A09E667F3BCC = 0xC034000000000000 ∧
  llr 0x4034000000000000 0x3FE6A09E667F3BCC = 0xC069000000000000 ∧
  llr 0xC014000000000000 0x3FE6A09E667F3BCC = 0xBFE43D136248490F ∧
  llr 0xC024000000000000 0x3FE6A09E667F3BCC = 0xBFC999999999999A ∧
  llr 0x0000000000000000 0x0000000000000000 = 0x8000000000000000 ∧
  llr 0x0000000000000000 0x8000000000000000 = 0x0000000000000000 ∧
  reference.isNaN (llr 0x40AF400000000000 0x0000000000000000) = true ∧
  llr 0x40AF400000000000 0x3FE6A09E667F3BCC = 0xFFF0000000000000

/-! ## The decoder -/

/-- R42: the big-endian expansion, bit by bit; its inverse IDX, as the sum; and that they are inverse. -/
def Obligations.IndexExpansionIsBigEndian : Prop :=
  ∀ l : Nat, l ∈ supportedLengths →
    (∀ i < 2 ^ l, (be i l).length = l ∧
      (∀ col < l, (be i l)[col]? = some (decide ((i >>> (l - 1 - col)) % 2 = 1))) ∧ idx (be i l) = i) ∧
    ∀ d : List Bool, d.length = l →
      idx d = ((List.range l).map fun col => (d.getD col false).toNat * 2 ^ (l - 1 - col)).sum ∧ be (idx d) l = d

/-- R110: DEC_CFG, its word, its effect on a supported length (the table's entry i is EncodeCore(L, BE(i, L))), and on any
other. -/
def Obligations.DecCfgBuildsTheTableOrKeepsTheDecoder : Prop :=
  ∀ (l : Nat) (s : State),
    (l < 256 → decodeCmd (BitVec.ofNat 32 (0x00000007 + l * 2 ^ 8)) = .ok (.decCfg l)) ∧
    (s.payload = [] → l ∈ [2, 4, 6, 8, 11] →
      ∃ t, exec (.decCfg l) s = .next t ∧ Answered s t 0x00 [] ∧ t.dec.valid = true ∧ t.dec.l.toNat = l ∧
        t.dec.table.length = 2 ^ l ∧ (∀ i < 2 ^ l, t.dec.table[i]? = some (encodeCore s.gen l (be i l))) ∧
        t.gen = s.gen ∧ t.enc = s.enc ∧ t.chan = s.chan ∧ t.fault = s.fault) ∧
    (s.payload = [] → l ∉ [2, 4, 6, 8, 11] →
      ∃ t, exec (.decCfg l) s = .next t ∧ Answered s t 0x01 [] ∧ SameRegisters s t)

/-- R112: the metric is the sum over the 20 positions, ascending from 0, of +LLR where the codeword bit is 1 and neg LLR
elsewhere, whatever the numerics. -/
def Obligations.MetricIsTheOrderedSignedSum : Prop :=
  ∀ (α : Type) (N : Numerics α) (cw : Codeword) (x : Vector α 20),
    metric N cw x.toList =
      (List.finRange 20).foldl (fun acc j => N.add acc (if cw[j] then x[j] else N.neg x[j])) N.zero

/-- R113: on metrics that are no NaN, the search returns the lowest index whose metric no other is greater than, +0 and −0
counting as equal. -/
def Obligations.SearchReturnsTheLowestGreatestIndex : Prop :=
  ∀ m : List Num64, m ≠ [] → (∀ x ∈ m, reference.isNaN x = false) →
    ∃ v, m[search reference m]? = some v ∧
      ∀ (j : Nat) (x : Num64), m[j]? = some x →
        reference.gt x v = false ∧ (j < search reference m → reference.gt v x = true)

/-- R111: DECODE, its word, its errors, its model fault, and its answer: BE of the lowest index of a greatest metric. -/
def Obligations.DecodeAnswersTheMostLikelyVector : Prop :=
  ∀ (n : Nat) (x : List Num64) (s : State),
    (n < 65536 → decodeCmd (BitVec.ofNat 32 (0x00000008 + n * 2 ^ 16)) = .ok (.decode n)) ∧
    (x.length = n → s.payload = x.map .num →
      (s.dec.valid = false → ∃ t, exec (.decode n) s = .next t ∧ Answered s t 0x03 [] ∧ SameRegisters s t) ∧
      (s.dec.valid = true → n ≠ 20 → ∃ t, exec (.decode n) s = .next t ∧ Answered s t 0x02 [] ∧ SameRegisters s t) ∧
      (s.dec.valid = true → n = 20 → (∃ c ∈ s.dec.table, reference.isNaN (metric reference c x) = true) →
        ∃ t, exec (.decode n) s = .next t ∧ t.fault = some .nanMetric ∧ t.responses = s.responses ∧
          t.gen = s.gen ∧ t.enc = s.enc ∧ t.dec = s.dec ∧ t.chan = s.chan) ∧
      (s.dec.valid = true → n = 20 → (∀ c ∈ s.dec.table, reference.isNaN (metric reference c x) = false) → DecLegal s →
        ∃ (t : State) (b : Nat) (cb : Codeword), exec (.decode n) s = .next t ∧ SameRegisters s t ∧
          Answered s t 0x00 ((be b s.dec.l.toNat).map fun v => .bit (if v then 1 else 0)) ∧
          s.dec.table[b]? = some cb ∧
          ∀ (j : Nat) (c : Codeword), s.dec.table[j]? = some c →
            reference.gt (metric reference c x) (metric reference cb x) = false ∧
            (j < b → reference.gt (metric reference cb x) (metric reference c x) = true)))

/-- R114, R144 (log 11 on how it stands in the outcomes of a step): a DECODE with a NaN metric sets FAULT, sends no response,
and no further step happens, whatever the host issues; such a state is no good end of a run. -/
def Obligations.NanMetricStopsTheBlock : Prop :=
  ∀ (s : State) (x : List Num64) (rest : List Transaction), s.fault = none → s.dec.valid = true → x.length = 20 →
    s.pending = ⟨0x00140008, x.map .num⟩ :: rest →
    (∃ c ∈ s.dec.table, reference.isNaN (metric reference c x) = true) →
    ∃ t, step s = .next t ∧ t.fault = some .nanMetric ∧ t.responses = s.responses ∧
      (∀ p : List Transaction, step { t with pending := p } = .fault .nanMetric) ∧ ∀ k u, ¬ GoodRun k t u

/-- What R115 infers from R111 and R42: whatever is decoded, an OK answer of DECODE has exactly DEC.L elements, each 0 or 1;
it is BE of the winning index of R111, the most significant bit of that index first. -/
def Obligations.DecodedVectorHasLBinaryElements : Prop :=
  ∀ (n : Nat) (s t : State) (items : List Item), exec (.decode n) s = .next t →
    t.responses = s.responses ++ [⟨0x00, items⟩] →
    let bi := search reference (metrics reference s.dec.table (numsOf s.payload))
    items.length = s.dec.l.toNat ∧ (∀ x ∈ items, x = .bit 0 ∨ x = .bit 1) ∧
    items = (be bi s.dec.l.toNat).map (fun v => .bit (if v then 1 else 0)) ∧
    ∀ col < s.dec.l.toNat,
      items[col]? = some (.bit (if (bi >>> (s.dec.l.toNat - 1 - col)) % 2 = 1 then 1 else 0))

/-- R116: DEC_CFG and DECODE neither read nor change ENC, and ENC_CFG does not change DEC. -/
def Obligations.DecoderAndEncoderAreIndependent : Prop :=
  (∀ (i : Instr) (s t : State) (e : Enc), ((∃ l, i = .decCfg l) ∨ ∃ n, i = .decode n) →
    exec i s = .next t → t.enc = s.enc ∧ exec i { s with enc := e } = .next { t with enc := e }) ∧
  ∀ (l : Nat) (s t : State), exec (.encCfg l) s = .next t → t.dec = s.dec

/-- R118: two unfaulted blocks with the same GEN, whatever else their states hold, build the same table for the same L and
then give the same result for the same LLRs. -/
def Obligations.TablesAndDecodingsAreDetermined : Prop :=
  ∀ (s u : State) (l : Nat) (x : List Num64) (ps pu : List Transaction),
    s.fault = none → u.fault = none → s.gen = u.gen → l ∈ supportedLengths → x.length < 65536 →
    s.pending = (Line.decCfg (BitVec.ofNat 8 l)).assemble :: (Line.decode x).assemble :: ps →
    u.pending = (Line.decCfg (BitVec.ofNat 8 l)).assemble :: (Line.decode x).assemble :: pu →
    ∃ (s' u' : State) (rs : List Response),
      Sys2Proof.core.run 2 s = .next s' ∧ Sys2Proof.core.run 2 u = .next u' ∧
      s'.dec = u'.dec ∧ s'.fault = u'.fault ∧
      s'.responses = s.responses ++ rs ∧ u'.responses = u.responses ++ rs

/-- R117, first step, in the reference configuration with its AMP (log 1, log 2): demodulating at 0 dB what MODULATE answers
gives +2.0 for each 1 and −2.0 for each 0. -/
def Obligations.NoiselessSoftValuesAreTwoSigned : Prop :=
  ∀ b : Byte, reference.neg (reference.mul (scaleOf 0x0000000000000000) (axisOf b)) =
    (if b = 0 then 0xC000000000000000 else 0x4000000000000000)

/-- R117, in the reference configuration with its AMP and with the host's macros of R62 as typed functions (the model's
choices, log 1, log 2 and log 18): the noiseless round trip, for every GEN that meets GEN_rank, every supported length and
every information vector: encode, modulate, demodulate at 0 dB and decode give the vector back. -/
def Obligations.NoiselessRoundTripGivesTheVectorBack : Prop :=
  ∀ (s : State) (l : Nat) (d : List Byte), s.fault = none → s.pending = [] → GenRank s.gen → l ∈ supportedLengths →
    d.length = l → (∀ b ∈ d, b = 0 ∨ b = 1) →
    ∃ (s' : State) (y : List (Cplx Num64)) (t : State),
      encmod (BitVec.ofNat 8 l) d s = some (s', y) ∧ demdec (BitVec.ofNat 8 l) y s' = some (t, d)

/-! ## Reset -/

/-- R160, R30: the state after power-on reset, in every field the spec gives a value. -/
def Obligations.PowerOnResetState : Prop :=
  State.reset.gen = Config.gen ∧ State.reset.enc.valid = false ∧ State.reset.dec.valid = false ∧
  State.reset.dec.table = [] ∧ State.reset.chan.valid = false ∧ State.reset.fault = none

/-- R130: RESET, its word and its effect; ENCODE, TRANSMIT and DECODE after it answer NOT_CONFIGURED. -/
def Obligations.ResetUnconfiguresEveryUnit : Prop :=
  decodeCmd 0x0000000F = .ok .reset ∧
  ∀ s : State, s.payload = [] →
    ∃ t, exec .reset s = .next t ∧ Answered s t 0x00 [] ∧ t.enc.valid = false ∧ t.dec.valid = false ∧
      t.dec.table = [] ∧ t.chan.valid = false ∧ t.gen = s.gen ∧ t.fault = s.fault ∧
      ∀ i : Instr, (∃ n, i = .encode n ∨ i = .transmit n ∨ i = .decode n) → IsRequestPayload i t.payload →
        ∃ u, exec i t = .next u ∧ SameRegisters t u ∧ Answered t u 0x03 []

/-- R161: RESET leaves ENC, DEC and CHAN with the values of power-on reset and does not clear FAULT, so on a block that is
already reset it changes nothing; a faulted block does not perform it. -/
def Obligations.ResetEqualsPowerOnButForFault : Prop :=
  (∀ s : State, s.payload = [] → ∃ t, exec .reset s = .next t ∧ t.enc = State.reset.enc ∧ t.dec = State.reset.dec ∧
    t.chan = State.reset.chan ∧ t.gen = s.gen ∧ t.fault = s.fault ∧
    (s.enc = State.reset.enc → s.dec = State.reset.dec → s.chan = State.reset.chan → SameRegisters s t)) ∧
  ∀ (s : State) (f : Fault) (p : List Transaction), s.fault = some f → s.pending = ⟨0x0000000F, []⟩ :: p →
    step s = .fault f

/-! ## Invariants -/

/-- R24: every step keeps the table what R24 says it is, in every configured decoder, and DECODE never writes it. -/
def Obligations.EveryStepKeepsTheCodewordTable : Prop :=
  (∀ s t : State, DecLegal s → step s = .next t → DecLegal t) ∧
  ∀ (n : Nat) (s t : State), exec (.decode n) s = .next t → t.dec.table = s.dec.table

/-- R22, R30, R140, R56: every step keeps ENC.L a supported length while ENC is configured, the table of an unconfigured
decoder empty, and the responses sent legal. -/
def Obligations.EveryStepKeepsTheRegistersLegal : Prop :=
  ∀ s t : State, EncLegal s → TableEmptyUnlessConfigured s → ResponsesLegal s → step s = .next t →
    EncLegal t ∧ TableEmptyUnlessConfigured t ∧ ResponsesLegal t

/-- The invariants hold after power-on reset. -/
def Obligations.PowerOnResetIsLegal : Prop :=
  EncLegal State.reset ∧ DecLegal State.reset ∧ TableEmptyUnlessConfigured State.reset ∧ ResponsesLegal State.reset

/-- R21: "No command writes it, RESET included": the ROM is the same after every step. -/
def Obligations.NoStepWritesGen : Prop :=
  ∀ s t : State, step s = .next t → t.gen = s.gen

/-- R22, R23, R25, R27: a step that changes a register performed one of the commands that write it; TRANSMIT changes
nothing of CHAN but K. -/
def Obligations.RegistersAreWrittenByTheirCommandsOnly : Prop :=
  ∀ s t : State, step s = .next t →
    let performed := fun (P : Instr → Prop) =>
      ∃ tr rest i, s.pending = tr :: rest ∧ decodeCmd tr.word = .ok i ∧ P i
    (t.enc ≠ s.enc → performed fun i => (∃ l, i = .encCfg l) ∨ i = .reset) ∧
    (t.dec ≠ s.dec → performed fun i => (∃ l, i = .decCfg l) ∨ i = .reset) ∧
    (t.chan ≠ s.chan → performed fun i => i = .chanCfg ∨ i = .reset ∨
      ∃ n, i = .transmit n ∧ t.chan = { s.chan with k := s.chan.k + 2 * n }) ∧
    (t.fault ≠ s.fault → performed fun i => ∃ n, i = .decode n)

/-! ## The reference numerics -/

/-- R8, G3, with NUM as log 1 chooses it: `⊕` of two numbers is correctly rounded, and an exact sum of zero is +0 but for
−0 ⊕ −0; an infinity swallows every number and an infinity of its own sign; opposite infinities, or a NaN, give a NaN. -/
def Obligations.AdditionIsCorrectlyRounded : Prop :=
  (∀ x y : Num64, Binary64.isFinite x = true → Binary64.isFinite y = true →
    Binary64.RoundsTo (Binary64.value x + Binary64.value y) (reference.add x y) ∧
    (Binary64.value x + Binary64.value y = 0 →
      reference.add x y = if x = 0x8000000000000000 ∧ y = 0x8000000000000000 then 0x8000000000000000 else 0x0000000000000000)) ∧
  (∀ x : Num64, reference.isNaN x = false →
    (x ≠ minusInf → reference.add plusInf x = plusInf ∧ reference.add x plusInf = plusInf) ∧
    (x ≠ plusInf → reference.add minusInf x = minusInf ∧ reference.add x minusInf = minusInf)) ∧
  reference.isNaN (reference.add plusInf minusInf) = true ∧ reference.isNaN (reference.add minusInf plusInf) = true ∧
  ∀ x y : Num64, (reference.isNaN x = true ∨ reference.isNaN y = true) → reference.isNaN (reference.add x y) = true

/-- R8, G3, with NUM as log 1 chooses it: `⊗` of two numbers is correctly rounded; a product that is no NaN, a zero or an
infinity too, has the exclusive OR of the signs; an infinity times a zero, or a NaN, gives a NaN, and an infinity times
anything else an infinity. -/
def Obligations.MultiplicationIsCorrectlyRounded : Prop :=
  ∀ x y : Num64,
    (Binary64.isFinite x = true → Binary64.isFinite y = true →
      Binary64.RoundsTo (Binary64.value x * Binary64.value y) (reference.mul x y)) ∧
    (reference.isNaN (reference.mul x y) = false →
      Binary64.sign (reference.mul x y) = xor (Binary64.sign x) (Binary64.sign y)) ∧
    (Binary64.isInf x = true → Binary64.isZero y = true →
      reference.isNaN (reference.mul x y) = true ∧ reference.isNaN (reference.mul y x) = true) ∧
    (Binary64.isInf x = true → reference.isNaN y = false → Binary64.isZero y = false →
      Binary64.isInf (reference.mul x y) = true ∧ Binary64.isInf (reference.mul y x) = true) ∧
    ((reference.isNaN x = true ∨ reference.isNaN y = true) → reference.isNaN (reference.mul x y) = true)

/-- R8, G3, with NUM as log 1 chooses it: `⊘` of two numbers, the second not zero, is correctly rounded; a quotient that is
no NaN has the exclusive OR of the signs; division by zero and of an infinity gives an infinity, of a number by an infinity a
zero; zero by zero, infinity by infinity, or a NaN, gives a NaN. -/
def Obligations.DivisionIsCorrectlyRounded : Prop :=
  ∀ x y : Num64,
    (Binary64.isFinite x = true → Binary64.isFinite y = true → Binary64.value y ≠ 0 →
      Binary64.RoundsTo (Binary64.value x / Binary64.value y) (reference.div x y)) ∧
    (reference.isNaN (reference.div x y) = false →
      Binary64.sign (reference.div x y) = xor (Binary64.sign x) (Binary64.sign y)) ∧
    (reference.isNaN x = false → Binary64.isZero x = false → Binary64.isZero y = true →
      Binary64.isInf (reference.div x y) = true) ∧
    (Binary64.isInf x = true → Binary64.isFinite y = true → Binary64.isInf (reference.div x y) = true) ∧
    (Binary64.isFinite x = true → Binary64.isInf y = true → Binary64.isZero (reference.div x y) = true) ∧
    ((Binary64.isZero x = true ∧ Binary64.isZero y = true) ∨ (Binary64.isInf x = true ∧ Binary64.isInf y = true) ∨
      reference.isNaN x = true ∨ reference.isNaN y = true → reference.isNaN (reference.div x y) = true)

/-- R8, G3, with NUM as log 1 chooses it: `sqrt` of a number that is not negative is correctly rounded, and of a zero that
zero; of a negative number, of −∞ and of a NaN it is a NaN; of +∞ it is +∞. -/
def Obligations.SquareRootIsCorrectlyRounded : Prop :=
  (∀ x : Num64, Binary64.isFinite x = true →
    (0 ≤ Binary64.value x → Binary64.RoundsTo (Real.sqrt (Binary64.value x)) (reference.sqrt x)) ∧
    (Binary64.value x = 0 → reference.sqrt x = x) ∧
    (Binary64.value x < 0 → reference.isNaN (reference.sqrt x) = true)) ∧
  reference.sqrt plusInf = plusInf ∧ reference.isNaN (reference.sqrt minusInf) = true ∧
  ∀ x : Num64, reference.isNaN x = true → reference.isNaN (reference.sqrt x) = true

/-- R8, G3, with NUM as log 1 chooses it: `neg` flips the sign bit and nothing else, and a number's value with it; a word
that is no NaN is a number, +∞ or −∞; `>` is the order of the values of numbers, with +∞ above and −∞ (NEG_INF) below all else,
neither above itself, and false with a NaN. -/
def Obligations.NegationAndComparison : Prop :=
  (∀ x : Num64, reference.neg x = x ^^^ 0x8000000000000000 ∧
    (Binary64.isFinite x = true → Binary64.value (reference.neg x) = - Binary64.value x)) ∧
  (∀ x : Num64, reference.isNaN x = false ↔ Binary64.isFinite x = true ∨ x = plusInf ∨ x = minusInf) ∧
  (∀ x y : Num64, Binary64.isFinite x = true → Binary64.isFinite y = true →
    (reference.gt x y = true ↔ Binary64.value y < Binary64.value x)) ∧
  (∀ x : Num64, reference.isNaN x = false →
    (reference.gt plusInf x = true ↔ x ≠ plusInf) ∧ reference.gt x plusInf = false ∧
    (reference.gt x minusInf = true ↔ x ≠ minusInf) ∧ reference.gt minusInf x = false) ∧
  reference.negInf = minusInf ∧
  ∀ x y : Num64, (reference.isNaN x = true ∨ reference.isNaN y = true) → reference.gt x y = false

/-- R61: a decimal literal is read as the nearest binary64 number; `inf`, `-inf` and `nan` as the words R61 gives; `AMP` and
`-AMP` as AMP (the value log 2 chooses) and its negation. -/
def Obligations.DecimalLiteralsReadAsTheNearest : Prop :=
  (∀ (negative : Bool) (digits places : Nat),
    Binary64.RoundsTo ((if negative then -1 else 1) * (digits / 10 ^ places : ℝ))
      (NumLit.value (.decimal negative digits places))) ∧
  NumLit.value .inf = 0x7FF0000000000000 ∧ NumLit.value .negInf = 0xFFF0000000000000 ∧
  NumLit.value .nan = 0x7FF8000000000000 ∧ NumLit.value .amp = 0x3FE6A09E667F3BCC ∧
  NumLit.value .negAmp = 0xBFE6A09E667F3BCC
end

