-- ==== Sys2Proof/Laws/Binary64.lean ====
section
/-! SUPPORT. The reference arithmetic: `strict` is application, what the classes of a word are, and the order of `>`. -/

namespace Sys2Proof.Machine

@[simp] theorem strict_eq {β : Type} (x : Num64) (k : Num64 → β) : strict x k = k x := by
  have hx : BitVec.ofNat 64 x.toNat = x := by simp
  unfold strict
  split
  · next h => rw [h] at hx; exact congrArg k hx
  · next n h => rw [h] at hx; exact congrArg k hx

@[simp] theorem strict2_eq {β : Type} (f : Num64 → Num64 → β) (x y : Num64) : strict2 f x y = f x y := by simp [strict2]

@[simp] theorem reference_add (x y : Num64) : reference.add x y = Binary64.add x y := by simp [reference]
@[simp] theorem reference_mul (x y : Num64) : reference.mul x y = Binary64.mul x y := by simp [reference]
@[simp] theorem reference_div (x y : Num64) : reference.div x y = Binary64.div x y := by simp [reference]
@[simp] theorem reference_neg (x : Num64) : reference.neg x = Binary64.neg x := by simp [reference]
@[simp] theorem reference_sqrt (x : Num64) : reference.sqrt x = Binary64.sqrt x := by simp [reference]
@[simp] theorem reference_pow10 (x : Num64) : reference.pow10 x = pow10 x := by simp [reference]
@[simp] theorem reference_gt (x y : Num64) : reference.gt x y = Binary64.gt x y := by simp [reference]
@[simp] theorem reference_isNaN (x : Num64) : reference.isNaN x = Binary64.isNaN x := by simp [reference]
@[simp] theorem reference_zero : reference.zero = 0x0000000000000000 := rfl
@[simp] theorem reference_one : reference.one = 0x3FF0000000000000 := rfl
@[simp] theorem reference_two : reference.two = 0x4000000000000000 := rfl
@[simp] theorem reference_ten : reference.ten = 0x4024000000000000 := rfl
@[simp] theorem reference_negInf : reference.negInf = 0xFFF0000000000000 := rfl

/-- R9: AMP's bit pattern in the reference configuration. -/
theorem amp_eq : amp = 0x3FE6A09E667F3BCC := by decide +kernel

/-- R81: −AMP's. -/
theorem neg_amp_eq : Binary64.neg amp = 0xBFE6A09E667F3BCC := by decide +kernel

namespace Binary64

theorem magnitude_lt (x : Num64) : magnitude x < 2 ^ 63 := Nat.mod_lt _ (by norm_num)

/-- A word is its sign and its magnitude. -/
theorem toNat_eq (x : Num64) : x.toNat = (if sign x then 2 ^ 63 else 0) + magnitude x := by
  have h := BitVec.isLt x
  have hs : sign x = decide (2 ^ 63 ≤ x.toNat) := by simp [sign, BitVec.msb_eq_decide]
  rw [hs, magnitude]
  by_cases hb : 2 ^ 63 ≤ x.toNat
  · simp only [hb, decide_true, if_true]; omega
  · simp only [hb, decide_false, Bool.false_eq_true, if_false]; omega

theorem eq_of_sign_magnitude {x y : Num64} (hs : sign x = sign y) (hm : magnitude x = magnitude y) : x = y := by
  apply BitVec.eq_of_toNat_eq
  rw [toNat_eq, toNat_eq, hs, hm]

theorem toNat_withSign (s : Bool) {b : Nat} (h : b < 2 ^ 63) :
    (withSign s b).toNat = (if s then 2 ^ 63 else 0) + b := by
  cases s <;> simp [withSign] <;> omega

@[simp] theorem magnitude_withSign (s : Bool) {b : Nat} (h : b < 2 ^ 63) : magnitude (withSign s b) = b := by
  rw [magnitude, toNat_withSign s h]
  cases s
  · simp; omega
  · simp; omega

@[simp] theorem sign_withSign (s : Bool) {b : Nat} (h : b < 2 ^ 63) : sign (withSign s b) = s := by
  rw [sign, BitVec.msb_eq_decide, toNat_withSign s h]
  cases s <;> simp
  omega

/-- The NaN an operation answers is a NaN, whatever its free bits are (log 4). -/
@[simp] theorem isNaN_quietNaN (free : BitVec 52) : isNaN (quietNaN free) = true := by
  rw [isNaN, quietNaN, magnitude_withSign _ (by norm_num [infBits]; omega)]
  simp only [decide_eq_true_eq]
  omega

/-- A NaN operand gives a NaN result. -/
theorem isNaN_add {x y : Num64} (h : isNaN x = true ∨ isNaN y = true) : isNaN (add x y) = true := by
  rcases h with h | h <;> simp [add, h]

theorem isNaN_mul {x y : Num64} (h : isNaN x = true ∨ isNaN y = true) : isNaN (mul x y) = true := by
  rcases h with h | h <;> simp [mul, h]

theorem isNaN_div {x y : Num64} (h : isNaN x = true ∨ isNaN y = true) : isNaN (div x y) = true := by
  rcases h with h | h <;> simp [div, h]

theorem isNaN_sqrt {x : Num64} (h : isNaN x = true) : isNaN (sqrt x) = true := by simp [sqrt, h]

theorem isNaN_pow10 {x : Num64} (h : isNaN x = true) : isNaN (pow10 x) = true := by simp [pow10, h]

/-- Every finite word, infinity and NaN is one of the three. -/
theorem classes (x : Num64) : (isFinite x = true ∧ isInf x = false ∧ isNaN x = false) ∨
    (isFinite x = false ∧ isInf x = true ∧ isNaN x = false) ∨ (isFinite x = false ∧ isInf x = false ∧ isNaN x = true) := by
  simp only [isFinite, isInf, isNaN]
  rcases lt_trichotomy (magnitude x) infBits with h | h | h
  · left; simp [h, h.ne, h.le]
  · right; left; simp [h]
  · right; right; simp [h, h.ne', h.le]

@[simp] theorem sign_neg (x : Num64) : sign (neg x) = !sign x := sign_withSign _ (magnitude_lt x)

@[simp] theorem magnitude_neg (x : Num64) : magnitude (neg x) = magnitude x := magnitude_withSign _ (magnitude_lt x)

@[simp] theorem neg_neg (x : Num64) : neg (neg x) = x :=
  eq_of_sign_magnitude (by simp) (by simp)

@[simp] theorem isNaN_neg (x : Num64) : isNaN (neg x) = isNaN x := by simp [isNaN]
@[simp] theorem isFinite_neg (x : Num64) : isFinite (neg x) = isFinite x := by simp [isFinite]

theorem infBits_lt : infBits < 2 ^ 63 := by norm_num [infBits]

@[simp] theorem sign_zeroOf (s : Bool) : sign (zeroOf s) = s := sign_withSign s (by norm_num)
@[simp] theorem sign_infOf (s : Bool) : sign (infOf s) = s := sign_withSign s infBits_lt
@[simp] theorem magnitude_zeroOf (s : Bool) : magnitude (zeroOf s) = 0 := magnitude_withSign s (by norm_num)
@[simp] theorem magnitude_infOf (s : Bool) : magnitude (infOf s) = infBits := magnitude_withSign s infBits_lt
@[simp] theorem isZero_zeroOf (s : Bool) : isZero (zeroOf s) = true := by simp [isZero]
@[simp] theorem isInf_infOf (s : Bool) : isInf (infOf s) = true := by simp [isInf]

/-- There are two zeros, by the sign, and two infinities. -/
theorem eq_zeroOf {x : Num64} (h : isZero x = true) : x = zeroOf (sign x) :=
  eq_of_sign_magnitude (by simp) (by simpa [isZero] using h)

theorem eq_infOf {x : Num64} (h : isInf x = true) : x = infOf (sign x) :=
  eq_of_sign_magnitude (by simp) (by simpa [isInf] using h)

theorem isNaN_of_isInf {x : Num64} (h : isInf x = true) : isNaN x = false := by
  rcases classes x with h' | h' | h' <;> simp_all

theorem isZero_of_isInf {x : Num64} (h : isInf x = true) : isZero x = false := by
  simp only [isInf, isZero, beq_iff_eq, beq_eq_false_iff_ne, infBits] at h ⊢
  omega

theorem isFinite_of_isZero {x : Num64} (h : isZero x = true) : isFinite x = true := by
  rw [isZero, beq_iff_eq] at h
  rw [isFinite, decide_eq_true_eq, h]
  norm_num [infBits]

/-- On words that are no NaN, `>` is the order of their keys. -/
theorem gt_iff {x y : Num64} (hx : isNaN x = false) (hy : isNaN y = false) :
    gt x y = true ↔ orderKey y < orderKey x := by
  simp [gt, hx, hy]

theorem gt_eq_false_iff {x y : Num64} (hx : isNaN x = false) (hy : isNaN y = false) :
    gt x y = false ↔ orderKey x ≤ orderKey y := by
  rw [← Bool.not_eq_true, gt_iff hx hy, not_lt]

/-- −∞ is the least of the numbers. -/
theorem negInf_le {x : Num64} (hx : isNaN x = false) : orderKey 0xFFF0000000000000 ≤ orderKey x := by
  have hm : magnitude x ≤ infBits := by simpa [isNaN] using hx
  have h0 : orderKey 0xFFF0000000000000 = -(infBits : Int) := by decide +kernel
  rw [h0, orderKey]
  split <;> omega

end Binary64
end Sys2Proof.Machine
end

