-- ==== Sys2Proof/Laws/Coding.lean ====
section
/-! SUPPORT. The coding function and the index expansion: what `xorSum`, `encodeCore`, `be`, `idx` and `codewordTable` are,
said once (R12, R42, R70, R110). -/

namespace Sys2Proof.Machine

@[simp] theorem xorSum_false (n : Nat) : xorSum n (fun _ => false) = false := by
  induction n with
  | zero => rfl
  | succ n ih => simp [xorSum, ih]

theorem xorSum_congr {n : Nat} {t u : Nat → Bool} (h : ∀ c < n, t c = u c) : xorSum n t = xorSum n u := by
  induction n with
  | zero => rfl
  | succ n ih => simp [xorSum, ih fun c hc => h c (by omega), h n (by omega)]

theorem xorSum_xor (n : Nat) (t u : Nat → Bool) : xorSum n (fun c => t c ^^ u c) = (xorSum n t ^^ xorSum n u) := by
  induction n with
  | zero => rfl
  | succ n ih => simp only [xorSum, ih]; cases xorSum n t <;> cases xorSum n u <;> cases t n <;> cases u n <;> rfl

/-- An exclusive OR with one term that can be 1 is that term. -/
theorem xorSum_single {n k : Nat} (hk : k < n) {t : Nat → Bool} (h : ∀ c < n, c ≠ k → t c = false) :
    xorSum n t = t k := by
  induction n with
  | zero => omega
  | succ n ih =>
    by_cases hkn : k = n
    · subst hkn
      have : xorSum k t = xorSum k fun _ => false := xorSum_congr fun c hc => h c (by omega) (by omega)
      simp [xorSum, this]
    · simp [xorSum, ih (by omega) fun c hc => h c (by omega), h n (by omega) (by omega)]

/-- The exclusive OR of n bits is the parity of their count. -/
theorem xorSum_eq_parity (n : Nat) (t : Nat → Bool) : xorSum n t = decide ((List.range n).countP t % 2 = 1) := by
  induction n with
  | zero => rfl
  | succ n ih =>
    rw [xorSum, ih, List.range_succ, List.countP_append]
    cases h : t n <;> simp [h]
    rcases Nat.mod_two_eq_zero_or_one ((List.range n).countP t) with h2 | h2 <;> simp [h2, Nat.add_mod]

@[simp] theorem encodeCore_getElem (g : Gen) (l : Nat) (d : List Bool) (r : Nat) (hr : r < 20) :
    (encodeCore g l d)[r] = xorSum l fun col => genBit g ⟨r, hr⟩ (13 - l + col) && d.getD col false := by
  simp [encodeCore]

@[simp] theorem be_length (i l : Nat) : (be i l).length = l := by simp [be]

theorem be_getElem (i l col : Nat) (h : col < (be i l).length) : (be i l)[col] = i.testBit (l - 1 - col) := by
  simp [be]

theorem be_getD (i l col : Nat) (h : col < l) : (be i l).getD col false = i.testBit (l - 1 - col) := by
  simp [be, List.getD, h]

/-- One more bit in front is the most significant one. -/
theorem be_succ (i l : Nat) : be i (l + 1) = i.testBit l :: be i l := by
  apply List.ext_getElem
  · simp
  · intro n h1 h2
    cases n with
    | zero => simp [be]
    | succ n => simp [be]; congr 1; omega

/-- `be` reads the low l bits only. -/
theorem be_mod (i l : Nat) : be (i % 2 ^ l) l = be i l := by
  apply List.ext_getElem
  · simp
  · intro n h1 h2
    rw [be_getElem, be_getElem, Nat.testBit_mod_two_pow]
    simp at h1
    simp; omega

theorem idx_be_mod (i l : Nat) : idx (be i l) = i % 2 ^ l := by
  induction l with
  | zero => simp [be, idx, Nat.mod_one]
  | succ l ih =>
    rw [be_succ, idx, ih, be_length, Nat.mod_pow_succ, Nat.toNat_testBit]
    ring

theorem idx_lt (d : List Bool) : idx d < 2 ^ d.length := by
  induction d with
  | nil => simp [idx]
  | cons b d ih =>
    simp only [idx, List.length_cons, pow_succ]
    cases b <;> simp <;> omega

/-- R42: `BE` is the inverse of `IDX`. -/
theorem be_idx (d : List Bool) : be (idx d) d.length = d := by
  induction d with
  | nil => rfl
  | cons b d ih =>
    have hlt := idx_lt d
    rw [List.length_cons, be_succ]
    congr 1
    · rw [idx, ← Nat.mul_comm]
      cases b
      · simp [Nat.testBit_lt_two_pow hlt]
      · rw [Nat.testBit_two_pow_mul_add _ hlt]; simp
    · rw [← be_mod, idx, Nat.mul_comm, Nat.mul_add_mod, Nat.mod_eq_of_lt hlt, ih]

@[simp] theorem codewordTable_length (g : Gen) (l : Nat) : (codewordTable g l).length = 2 ^ l := by
  simp [codewordTable]

theorem codewordTable_getElem? (g : Gen) (l i : Nat) (h : i < 2 ^ l) :
    (codewordTable g l)[i]? = some (encodeCore g l (be i l)) := by
  simp [codewordTable, h]

theorem le_eleven_of_supported {l : Nat} (h : l ∈ supportedLengths) : l ≤ 11 := by
  simp [supportedLengths] at h; omega

theorem two_le_of_supported {l : Nat} (h : l ∈ supportedLengths) : 2 ≤ l := by
  simp [supportedLengths] at h; omega

/-- A supported length fits the 8-bit registers ENC.L and DEC.L. -/
theorem toNat_ofNat_of_supported {l : Nat} (h : l ∈ supportedLengths) : (BitVec.ofNat 8 l).toNat = l := by
  have := le_eleven_of_supported h
  simp; omega

end Sys2Proof.Machine
end

