-- ==== Sys2Proof/Laws/State.lean ====
section
/-! SUPPORT. What each update of the state leaves in each field, so that no proof unfolds a record update. -/

namespace Sys2Proof.Machine

variable (s : State)

@[simp] theorem answer_gen (r : Response) : (s.answer r).gen = s.gen := rfl
@[simp] theorem answer_enc (r : Response) : (s.answer r).enc = s.enc := rfl
@[simp] theorem answer_dec (r : Response) : (s.answer r).dec = s.dec := rfl
@[simp] theorem answer_chan (r : Response) : (s.answer r).chan = s.chan := rfl
@[simp] theorem answer_fault (r : Response) : (s.answer r).fault = s.fault := rfl
@[simp] theorem answer_pending (r : Response) : (s.answer r).pending = s.pending.tail := rfl
@[simp] theorem answer_responses (r : Response) : (s.answer r).responses = s.responses ++ [r] := rfl

@[simp] theorem respond_gen (items : List Item) : (respond items s).gen = s.gen := rfl
@[simp] theorem respond_enc (items : List Item) : (respond items s).enc = s.enc := rfl
@[simp] theorem respond_dec (items : List Item) : (respond items s).dec = s.dec := rfl
@[simp] theorem respond_chan (items : List Item) : (respond items s).chan = s.chan := rfl
@[simp] theorem respond_fault (items : List Item) : (respond items s).fault = s.fault := rfl
@[simp] theorem respond_pending (items : List Item) : (respond items s).pending = s.pending.tail := rfl
@[simp] theorem respond_responses (items : List Item) : (respond items s).responses = s.responses ++ [⟨Status.ok.code, items⟩] := rfl

@[simp] theorem raise_gen (st : Status) : (raise st s).gen = s.gen := rfl
@[simp] theorem raise_enc (st : Status) : (raise st s).enc = s.enc := rfl
@[simp] theorem raise_dec (st : Status) : (raise st s).dec = s.dec := rfl
@[simp] theorem raise_chan (st : Status) : (raise st s).chan = s.chan := rfl
@[simp] theorem raise_fault (st : Status) : (raise st s).fault = s.fault := rfl
@[simp] theorem raise_pending (st : Status) : (raise st s).pending = s.pending.tail := rfl
@[simp] theorem raise_responses (st : Status) : (raise st s).responses = s.responses ++ [⟨st.code, []⟩] := rfl

@[simp] theorem raiseFault_gen (f : Fault) : (raiseFault f s).gen = s.gen := rfl
@[simp] theorem raiseFault_enc (f : Fault) : (raiseFault f s).enc = s.enc := rfl
@[simp] theorem raiseFault_dec (f : Fault) : (raiseFault f s).dec = s.dec := rfl
@[simp] theorem raiseFault_chan (f : Fault) : (raiseFault f s).chan = s.chan := rfl
@[simp] theorem raiseFault_fault (f : Fault) : (raiseFault f s).fault = some f := rfl
@[simp] theorem raiseFault_pending (f : Fault) : (raiseFault f s).pending = s.pending.tail := rfl
@[simp] theorem raiseFault_responses (f : Fault) : (raiseFault f s).responses = s.responses := rfl

@[simp] theorem issueFirst_gen (t : Transaction) : (s.issueFirst t).gen = s.gen := rfl
@[simp] theorem issueFirst_enc (t : Transaction) : (s.issueFirst t).enc = s.enc := rfl
@[simp] theorem issueFirst_dec (t : Transaction) : (s.issueFirst t).dec = s.dec := rfl
@[simp] theorem issueFirst_chan (t : Transaction) : (s.issueFirst t).chan = s.chan := rfl
@[simp] theorem issueFirst_fault (t : Transaction) : (s.issueFirst t).fault = s.fault := rfl
@[simp] theorem issueFirst_pending (t : Transaction) : (s.issueFirst t).pending = t :: s.pending := rfl
@[simp] theorem issueFirst_responses (t : Transaction) : (s.issueFirst t).responses = s.responses := rfl

@[simp] theorem issueFirst_payload (t : Transaction) : (s.issueFirst t).payload = t.payload := rfl
@[simp] theorem issueFirst_nextWord (t : Transaction) : (s.issueFirst t).nextWord = some t.word := rfl

theorem payload_of_pending {s : State} {t : Transaction} {rest : List Transaction} (h : s.pending = t :: rest) :
    s.payload = t.payload := by simp [State.payload, h]

theorem nextWord_of_pending {s : State} {t : Transaction} {rest : List Transaction} (h : s.pending = t :: rest) :
    s.nextWord = some t.word := by simp [State.nextWord, h]

/-- The payload is a reading of the port and of nothing else. -/
theorem payload_congr {s t : State} (h : s.pending = t.pending) : s.payload = t.payload := by
  simp [State.payload, h]

@[simp] theorem reset_enc_valid : State.reset.enc.valid = false := rfl
@[simp] theorem reset_dec_valid : State.reset.dec.valid = false := rfl
@[simp] theorem reset_dec_table : State.reset.dec.table = [] := rfl
@[simp] theorem reset_chan_valid : State.reset.chan.valid = false := rfl
@[simp] theorem reset_fault : State.reset.fault = none := rfl

end Sys2Proof.Machine
end

