-- ==== Sys2Proof/Laws/Operands.lean ====
section
/-! SUPPORT. Reading a payload of an admitted shape gives back what the host wrote (R55, R59), and `perform` said once. -/

namespace Sys2Proof.Machine

/-- R59: the shape check compares the number of items and their types. -/
theorem hasShape_iff {shape : List ItemKind} {p : List Item} : hasShape shape p = true ↔ p.map Item.kind = shape := by
  induction shape generalizing p with
  | nil => cases p <;> simp [hasShape]
  | cons k ks ih => cases p <;> simp [hasShape, ih]

theorem perform_of_shape {shape : List ItemKind} {s : State} {k : List Item → State} (h : s.payload.map Item.kind = shape) :
    perform shape s k = .next (k s.payload) := by
  simp [perform, hasShape_iff.mpr h]

theorem perform_of_not_shape {shape : List ItemKind} {s : State} {k : List Item → State}
    (h : s.payload.map Item.kind ≠ shape) : perform shape s k = .refused .notAdmitted := by
  have : hasShape shape s.payload = false := by simpa [← hasShape_iff] using h
  simp [perform, this]

/-- All that an admitted command can be. -/
theorem perform_eq_next {shape : List ItemKind} {s t : State} {k : List Item → State} (h : perform shape s k = .next t) :
    s.payload.map Item.kind = shape ∧ t = k s.payload := by
  by_cases hs : s.payload.map Item.kind = shape
  · rw [perform_of_shape hs] at h
    exact ⟨hs, by cases h; rfl⟩
  · rw [perform_of_not_shape hs] at h; cases h

theorem perform_ne_fault {shape : List ItemKind} {s : State} {k : List Item → State} {f : Fault} :
    perform shape s k ≠ .fault f := by
  by_cases hs : s.payload.map Item.kind = shape
  · rw [perform_of_shape hs]; simp
  · rw [perform_of_not_shape hs]; simp

@[simp] theorem kind_map_bit (d : List Byte) : (d.map Item.bit).map Item.kind = List.replicate d.length .bit := by
  induction d with
  | nil => rfl
  | cons b d ih => simpa [Item.kind, List.replicate_succ] using ih

@[simp] theorem kind_map_num (x : List Num64) : (x.map Item.num).map Item.kind = List.replicate x.length .num := by
  induction x with
  | nil => rfl
  | cons b d ih => simpa [Item.kind, List.replicate_succ] using ih

@[simp] theorem bitsOf_map_bit (d : List Byte) : bitsOf (d.map .bit) = d := by
  induction d with
  | nil => rfl
  | cons b d ih => simp [bitsOf, ih]

@[simp] theorem numsOf_map_num (x : List Num64) : numsOf (x.map .num) = x := by
  induction x with
  | nil => rfl
  | cons b d ih => simp [numsOf, ih]

/-- A payload of n BitItems is n BitItems. -/
theorem eq_map_bit_of_kind {n : Nat} {p : List Item} (h : p.map Item.kind = List.replicate n .bit) :
    ∃ d : List Byte, d.length = n ∧ p = d.map .bit := by
  induction n generalizing p with
  | zero => exact ⟨[], rfl, by simpa using h⟩
  | succ n ih =>
    cases p with
    | nil => simp [List.replicate_succ] at h
    | cons x p =>
      rw [List.map_cons, List.replicate_succ, List.cons.injEq] at h
      obtain ⟨d, hd, rfl⟩ := ih h.2
      cases x <;> simp [Item.kind] at h
      case bit b => exact ⟨b :: d, by simp [hd], rfl⟩

/-- A payload of n NUM items is n NUM items. -/
theorem eq_map_num_of_kind {n : Nat} {p : List Item} (h : p.map Item.kind = List.replicate n .num) :
    ∃ x : List Num64, x.length = n ∧ p = x.map .num := by
  induction n generalizing p with
  | zero => exact ⟨[], rfl, by simpa using h⟩
  | succ n ih =>
    cases p with
    | nil => simp [List.replicate_succ] at h
    | cons x p =>
      rw [List.map_cons, List.replicate_succ, List.cons.injEq] at h
      obtain ⟨d, hd, rfl⟩ := ih h.2
      cases x <;> simp [Item.kind] at h
      case num b => exact ⟨b :: d, by simp [hd], rfl⟩

/-- R54: a Cplx is its two NUM items, "re then im". -/
@[simp] theorem cplxItems_eq (ys : List (Cplx Num64)) : cplxItems ys = (ys.flatMap fun y => [y.re, y.im]).map .num := by
  induction ys with
  | nil => rfl
  | cons y ys ih => simp [cplxItems, ih]

theorem cplxItems_eq_flatMap (ys : List (Cplx Num64)) : cplxItems ys = ys.flatMap fun y => [.num y.re, .num y.im] := by
  rw [cplxItems_eq, List.map_flatMap]; rfl

@[simp] theorem pairUp_flatMap {α : Type} (ys : List (Cplx α)) : pairUp (ys.flatMap fun y => [y.re, y.im]) = ys := by
  induction ys with
  | nil => rfl
  | cons y ys ih => simp [pairUp, ih]

theorem length_flatMap_cplx {α : Type} (ys : List (Cplx α)) : (ys.flatMap fun y => [y.re, y.im]).length = 2 * ys.length := by
  induction ys with
  | nil => rfl
  | cons y ys ih => simp only [List.flatMap_cons, List.length_append, ih, List.length_cons, List.length_nil]; omega

/-- R55: N Cplx are 2N NUM items. -/
theorem kind_cplxItems (ys : List (Cplx Num64)) : (cplxItems ys).map Item.kind = List.replicate (2 * ys.length) .num := by
  rw [cplxItems_eq, kind_map_num, length_flatMap_cplx]

theorem pairUp_numsOf_cplxItems (ys : List (Cplx Num64)) : pairUp (numsOf (cplxItems ys)) = ys := by
  rw [cplxItems_eq, numsOf_map_num, pairUp_flatMap]

@[simp] theorem bitsOf_map_bitItem (bits : List Bool) : bitsOf (bits.map bitItem) = bits.map fun b => if b then 1 else 0 := by
  induction bits with
  | nil => rfl
  | cons b bits ih => simp [bitItem, bitsOf, ih]

/-- An even number of NUM items is the items of half as many Cplx. -/
theorem exists_pairUp {α : Type} {n : Nat} {xs : List α} (h : xs.length = 2 * n) :
    ∃ ys : List (Cplx α), ys.length = n ∧ xs = ys.flatMap fun y => [y.re, y.im] := by
  induction n generalizing xs with
  | zero => exact ⟨[], rfl, by simpa using h⟩
  | succ n ih =>
    match xs, h with
    | a :: b :: xs, h =>
      obtain ⟨ys, hy, rfl⟩ := ih (xs := xs) (by simp at h; omega)
      exact ⟨⟨a, b⟩ :: ys, by simp [hy], rfl⟩

end Sys2Proof.Machine
end

