-- ==== Sys2Proof/Laws/Commands.lean ====
section
/-! SUPPORT. What each command does on the payload its word calls for (R55), the payload already read: the one lemma per
meaning that is cited in place of its definition. -/

namespace Sys2Proof.Machine

variable {s : State}

theorem exec_encCfg (l : Nat) (h : s.payload = []) :
    exec (.encCfg l) s = .next (if l ∉ supportedLengths then raise .invalidConfiguration s
      else respond [] { s with enc := ⟨true, BitVec.ofNat 8 l⟩ }) := by
  have hs : s.payload.map Item.kind = payloadShape (.encCfg l) := by rw [h]; rfl
  simp only [exec, execEncCfg, perform_of_shape hs]

theorem exec_encode {d : List Byte} (h : s.payload = d.map .bit) :
    exec (.encode d.length) s = .next (if s.enc.valid = false then raise .notConfigured s
      else if d.length ≠ s.enc.l.toNat then raise .invalidInput s
      else if d.all isBinary = false then raise .invalidInput s
      else respond ((encodeCore s.gen s.enc.l.toNat (d.map (· == 1))).toList.map bitItem) s) := by
  have hs : s.payload.map Item.kind = payloadShape (.encode d.length) := by rw [h, kind_map_bit]; rfl
  simp only [exec, execEncode, perform_of_shape hs, h, bitsOf_map_bit]

theorem exec_modulate {b : List Byte} (h : s.payload = b.map .bit) :
    exec (.modulate b.length) s = .next (if b.length % 2 ≠ 0 then raise .invalidInput s
      else respond (cplxItems (mapSymbols reference amp b)) s) := by
  have hs : s.payload.map Item.kind = payloadShape (.modulate b.length) := by rw [h, kind_map_bit]; rfl
  simp only [exec, execModulate, perform_of_shape hs, h, bitsOf_map_bit]

theorem exec_chanCfg {snrDb : Num64} {seed : Seed} (h : s.payload = [.num snrDb, .seed seed]) :
    exec .chanCfg s = .next (respond [] { s with chan := ⟨true, snrDb, noiseSigma reference snrDb, seed, 0⟩ }) := by
  have hs : s.payload.map Item.kind = payloadShape .chanCfg := by rw [h]; rfl
  simp only [exec, execChanCfg, perform_of_shape hs, h, numsOf, seedsOf, List.headD_cons]

theorem exec_transmit {ys : List (Cplx Num64)} (h : s.payload = cplxItems ys) :
    exec (.transmit ys.length) s = .next (if s.chan.valid = false then raise .notConfigured s
      else respond (cplxItems (addNoise reference (Config.noise s.chan.seed s.chan.sigma) s.chan.k ys))
        { s with chan := { s.chan with k := s.chan.k + 2 * ys.length } }) := by
  have hs : s.payload.map Item.kind = payloadShape (.transmit ys.length) := by rw [h, kind_cplxItems]; rfl
  simp only [exec, execTransmit, perform_of_shape hs, h, pairUp_numsOf_cplxItems]

theorem exec_demodulate {snrDb : Num64} {ys : List (Cplx Num64)} (h : s.payload = .num snrDb :: cplxItems ys) :
    exec (.demodulate ys.length) s =
      .next (respond ((softValues reference (llrScale reference snrDb) ys).map .num) s) := by
  have hs : s.payload.map Item.kind = payloadShape (.demodulate ys.length) := by
    rw [h, List.map_cons, kind_cplxItems]; rfl
  simp only [exec, execDemodulate, perform_of_shape hs, h, numsOf, List.headD_cons, List.tail_cons, pairUp_numsOf_cplxItems]

theorem exec_decCfg (l : Nat) (h : s.payload = []) :
    exec (.decCfg l) s = .next (if l ∉ supportedLengths then raise .invalidConfiguration s
      else respond [] { s with dec := ⟨true, BitVec.ofNat 8 l, codewordTable s.gen l⟩ }) := by
  have hs : s.payload.map Item.kind = payloadShape (.decCfg l) := by rw [h]; rfl
  simp only [exec, execDecCfg, perform_of_shape hs]

theorem exec_decode {llr : List Num64} (h : s.payload = llr.map .num) :
    exec (.decode llr.length) s = .next (if s.dec.valid = false then raise .notConfigured s
      else if llr.length ≠ codewordLength then raise .invalidInput s
      else if (metrics reference s.dec.table llr).any reference.isNaN then raiseFault .nanMetric s
      else respond ((be (search reference (metrics reference s.dec.table llr)) s.dec.l.toNat).map bitItem) s) := by
  have hs : s.payload.map Item.kind = payloadShape (.decode llr.length) := by rw [h, kind_map_num]; rfl
  simp only [exec, execDecode, perform_of_shape hs, h, numsOf_map_num]

theorem exec_reset (h : s.payload = []) :
    exec .reset s = .next (respond [] { s with enc := .reset, dec := .reset, chan := .reset }) := by
  have hs : s.payload.map Item.kind = payloadShape .reset := by rw [h]; rfl
  simp only [exec, execReset, perform_of_shape hs]

end Sys2Proof.Machine
end

