-- ==== Sys2Proof/Laws/Decoding.lean ====
section
/-! SUPPORT. The maximum-likelihood search, said once for any order (R113), and the metric as a sum over positions (R112). -/

namespace Sys2Proof.Machine

variable {α : Type}

/-- Where `>` is the order of a key on the metrics and on NEG_INF, and no metric is below NEG_INF, the scan that starts at
index `i` with an index `bi` before it ends at `bi`, if no metric ahead is greater, or at the first greatest one ahead. -/
theorem searchFrom_spec (N : Numerics α) (key : α → ℤ) (ms : List α) (i : ℕ) (best : α) (bi : ℕ)
    (hgt : ∀ x ∈ ms, ∀ y ∈ best :: ms, N.gt x y = decide (key y < key x)) :
    (searchFrom N ms i best bi = bi ∧ ∀ j (h : j < ms.length), key ms[j] ≤ key best) ∨
    (∃ j, ∃ h : j < ms.length, searchFrom N ms i best bi = i + j ∧ key best < key ms[j] ∧
      (∀ l (hl : l < ms.length), key ms[l] ≤ key ms[j]) ∧ ∀ l (hl : l < j), key ms[l] < key ms[j]) := by
  induction ms generalizing i best bi with
  | nil => left; exact ⟨rfl, fun j h => by simp at h⟩
  | cons m ms ih =>
    have hm : N.gt m best = decide (key best < key m) := hgt m (by simp) best (by simp)
    rw [searchFrom, hm]
    by_cases hc : key best < key m
    · rw [if_pos (by simpa using hc)]
      right
      rcases ih (i + 1) m i (fun x hx y hy => hgt x (by simp [hx]) y (by
          rcases List.mem_cons.mp hy with rfl | hy <;> simp [*])) with ⟨h1, h2⟩ | ⟨j, hj, h1, h2, h3, h4⟩
      · refine ⟨0, by simp, by simpa using h1, by simpa using hc, ?_, fun l hl => by omega⟩
        rintro (_ | l) hl
        · simp
        · simpa using h2 l (by simpa using hl)
      · refine ⟨j + 1, by simpa using hj, by rw [h1]; omega, by simpa using hc.trans h2, ?_, ?_⟩
        · rintro (_ | l) hl
          · simpa using h2.le
          · simpa using h3 l (by simpa using hl)
        · rintro (_ | l) hl
          · simpa using h2
          · simpa using h4 l (by omega)
    · rw [if_neg (by simpa using hc)]
      rcases ih (i + 1) best bi (fun x hx y hy => hgt x (by simp [hx]) y (by
          rcases List.mem_cons.mp hy with rfl | hy <;> simp [*])) with ⟨h1, h2⟩ | ⟨j, hj, h1, h2, h3, h4⟩
      · left
        refine ⟨h1, ?_⟩
        rintro (_ | l) hl
        · simpa using hc
        · simpa using h2 l (by simpa using hl)
      · right
        refine ⟨j + 1, by simpa using hj, by rw [h1]; omega, by simpa using h2, ?_, ?_⟩
        · rintro (_ | l) hl
          · simp only [List.getElem_cons_zero, List.getElem_cons_succ]; omega
          · simpa using h3 l (by simpa using hl)
        · rintro (_ | l) hl
          · simp only [List.getElem_cons_zero, List.getElem_cons_succ]; omega
          · simpa using h4 l (by omega)

/-- R113: the lowest index of a greatest metric. -/
theorem search_spec (N : Numerics α) (key : α → ℤ) {ms : List α} (hne : ms ≠ [])
    (hgt : ∀ x ∈ ms, ∀ y ∈ N.negInf :: ms, N.gt x y = decide (key y < key x)) (hinf : ∀ x ∈ ms, key N.negInf ≤ key x) :
    ∃ h : search N ms < ms.length, (∀ l (hl : l < ms.length), key ms[l] ≤ key ms[search N ms]) ∧
      ∀ l (hl : l < search N ms), key (ms[l]'(hl.trans h)) < key ms[search N ms] := by
  rw [search]
  rcases searchFrom_spec N key ms 0 N.negInf 0 hgt with ⟨h1, h2⟩ | ⟨j, hj, h1, h2, h3, h4⟩
  · have hpos : 0 < ms.length := List.length_pos_of_ne_nil hne
    have h0 := hinf ms[0] (List.getElem_mem hpos)
    simp only [h1]
    exact ⟨hpos, fun l hl => (h2 l hl).trans h0, fun l hl => by omega⟩
  · simp only [h1, Nat.zero_add]
    exact ⟨hj, h3, h4⟩

/-- The reference configuration's `>` on words that are no NaN. -/
theorem reference_gt_key {x y : Num64} (hx : Binary64.isNaN x = false) (hy : Binary64.isNaN y = false) :
    reference.gt x y = decide (Binary64.orderKey y < Binary64.orderKey x) := by
  simp [Binary64.gt, hx, hy]

@[simp] theorem metrics_length (N : Numerics α) (table : List Codeword) (llr : List α) :
    (metrics N table llr).length = table.length := by simp [metrics]

/-- One more position of the sum (R112). -/
@[simp] theorem metricFrom_cons (N : Numerics α) (acc : α) (c : Bool) (cs : List Bool) (x : α) (xs : List α) :
    metricFrom N acc (c :: cs) (x :: xs) = metricFrom N (N.add acc (if c then x else N.neg x)) cs xs := rfl

@[simp] theorem metricFrom_nil (N : Numerics α) (acc : α) (xs : List α) : metricFrom N acc [] xs = acc := by
  cases xs <;> rfl

/-- A metric whose sum is a NaN at some position stays one (R114). -/
theorem isNaN_metricFrom {acc : Num64} (h : Binary64.isNaN acc = true) (cs : List Bool) (xs : List Num64) :
    Binary64.isNaN (metricFrom reference acc cs xs) = true := by
  induction cs generalizing acc xs with
  | nil => simpa using h
  | cons c cs ih =>
    cases xs with
    | nil => exact h
    | cons x xs => exact ih (by simpa using Binary64.isNaN_add (.inl h)) xs

/-- A NaN first LLR makes every metric a NaN. -/
theorem isNaN_metric_of_head (cw : Codeword) {x : Num64} (h : Binary64.isNaN x = true) (xs : List Num64) :
    Binary64.isNaN (metric reference cw (x :: xs)) = true := by
  have hl : cw.toList.length = 20 := by simp
  match hc : cw.toList, hl with
  | c :: cs, _ =>
    rw [metric, hc, metricFrom_cons]
    refine isNaN_metricFrom ?_ cs xs
    rw [reference_add]
    refine Binary64.isNaN_add (.inr ?_)
    cases c <;> simp [h]

end Sys2Proof.Machine
end

