-- ==== Sys2Proof/Laws/Noiseless.lean ====
section
/-! SUPPORT. Decoding LLRs of ±2.0 in the reference configuration (44_ml_decoder.md R117): every partial sum of a metric is an
even integer of magnitude at most 40, the sum is exact, and the greatest metric belongs to the sent vector alone. -/

namespace Sys2Proof.Machine

open Binary64 (orderKey isNaN)

/-- The binary64 word of the integer 2k. -/
def evenWord (k : ℤ) : Num64 := Binary64.round (decide (k < 0)) (2 * k.natAbs) 1074

theorem evenWord_table : ∀ i ∈ List.range 41,
    isNaN (evenWord ((i : ℤ) - 20)) = false ∧
    (i < 40 → Binary64.add (evenWord ((i : ℤ) - 20)) 0x4000000000000000 = evenWord ((i : ℤ) - 19) ∧
      orderKey (evenWord ((i : ℤ) - 20)) < orderKey (evenWord ((i : ℤ) - 19))) ∧
    (0 < i → Binary64.add (evenWord ((i : ℤ) - 20)) 0xC000000000000000 = evenWord ((i : ℤ) - 21)) := by
  decide +kernel

theorem isNaN_evenWord {k : ℤ} (h1 : -20 ≤ k) (h2 : k ≤ 20) : isNaN (evenWord k) = false := by
  have := (evenWord_table (k + 20).toNat (by simp; omega)).1
  rwa [show (((k + 20).toNat : ℕ) : ℤ) - 20 = k by omega] at this

theorem evenWord_add_two {k : ℤ} (h1 : -20 ≤ k) (h2 : k < 20) :
    Binary64.add (evenWord k) 0x4000000000000000 = evenWord (k + 1) := by
  have := ((evenWord_table (k + 20).toNat (by simp; omega)).2.1 (by omega)).1
  rwa [show (((k + 20).toNat : ℕ) : ℤ) - 20 = k by omega, show (((k + 20).toNat : ℕ) : ℤ) - 19 = k + 1 by omega] at this

theorem evenWord_sub_two {k : ℤ} (h1 : -20 < k) (h2 : k ≤ 20) :
    Binary64.add (evenWord k) 0xC000000000000000 = evenWord (k - 1) := by
  have := (evenWord_table (k + 20).toNat (by simp; omega)).2.2 (by omega)
  rwa [show (((k + 20).toNat : ℕ) : ℤ) - 20 = k by omega, show (((k + 20).toNat : ℕ) : ℤ) - 21 = k - 1 by omega] at this

theorem evenWord_lt {k j : ℤ} (h1 : -20 ≤ k) (h : k < j) (h2 : j ≤ 20) : orderKey (evenWord k) < orderKey (evenWord j) := by
  have next : ∀ k : ℤ, -20 ≤ k → k < 20 → orderKey (evenWord k) < orderKey (evenWord (k + 1)) := by
    intro k h1 h2
    have := ((evenWord_table (k + 20).toNat (by simp; omega)).2.1 (by omega)).2
    rwa [show (((k + 20).toNat : ℕ) : ℤ) - 20 = k by omega, show (((k + 20).toNat : ℕ) : ℤ) - 19 = k + 1 by omega] at this
  obtain ⟨n, rfl⟩ : ∃ n : ℕ, j = k + (n + 1 : ℕ) := ⟨(j - k - 1).toNat, by omega⟩
  induction n with
  | zero => exact next k h1 (by omega)
  | succ n ih =>
    refine (ih (by omega) (by omega)).trans ?_
    have := next (k + (n + 1 : ℕ)) (by omega) (by omega)
    rwa [show k + ((n + 1 : ℕ) : ℤ) + 1 = k + ((n + 1 + 1 : ℕ) : ℤ) by push_cast; ring] at this

/-- The LLR of a noiseless bit at 0 dB: +2.0 for a 1, −2.0 for a 0. -/
def softBit (b : Bool) : Num64 := if b then 0x4000000000000000 else 0xC000000000000000

/-- Positions where two bit vectors agree, less those where they differ. -/
def score : List Bool → List Bool → ℤ
  | a :: as, b :: bs => (if a = b then 1 else -1) + score as bs
  | _, _ => 0

theorem score_bounds {a b : List Bool} (h : a.length = b.length) :
    -(a.length : ℤ) ≤ score a b ∧ score a b ≤ a.length ∧ (score a b = a.length → a = b) := by
  induction a generalizing b with
  | nil => cases b <;> simp [score] at *
  | cons x a ih =>
    cases b with
    | nil => simp at h
    | cons y b =>
      obtain ⟨i1, i2, i3⟩ := ih (b := b) (by simpa using h)
      simp only [score, List.length_cons, List.cons.injEq]
      push_cast
      split
      · next e => exact ⟨by omega, by omega, fun h => ⟨e, i3 (by omega)⟩⟩
      · exact ⟨by omega, by omega, fun h => by omega⟩

theorem score_self (a : List Bool) : score a a = a.length := by
  induction a with
  | nil => rfl
  | cons x a ih => simp [score, ih]; ring

theorem metricFrom_softBit {a c : List Bool} {k : ℤ} (h : a.length = c.length) (hk1 : -20 + a.length ≤ k)
    (hk2 : k ≤ 20 - a.length) : metricFrom reference (evenWord k) a (c.map softBit) = evenWord (k + score a c) := by
  induction a generalizing c k with
  | nil => cases c <;> simp [score] at *
  | cons x a ih =>
    cases c with
    | nil => simp at h
    | cons y c =>
      simp only [List.length_cons, List.map_cons, metricFrom_cons, reference_add, reference_neg] at *
      push_cast at hk1 hk2
      have hu := evenWord_add_two (k := k) (by omega) (by omega)
      have hd := evenWord_sub_two (k := k) (by omega) (by omega)
      have i1 := ih (c := c) (k := k + 1) (by omega) (by omega) (by omega)
      have i2 := ih (c := c) (k := k - 1) (by omega) (by omega) (by omega)
      have n1 : Binary64.neg 0x4000000000000000 = 0xC000000000000000 := by decide +kernel
      have n2 : Binary64.neg 0xC000000000000000 = 0x4000000000000000 := by decide +kernel
      simp only [score]
      cases x <;> cases y <;> simp only [softBit, if_true, Bool.false_eq_true, if_false, reduceCtorEq]
      · rw [n2, hu, i1]; congr 1; ring
      · rw [n1, hd, i2]; congr 1; ring
      · rw [hd, i2]; congr 1; ring
      · rw [hu, i1]; congr 1; ring

/-- R117: `Metric(TABLE[i], l)` of noiseless LLRs is twice the score. -/
theorem metric_softBit (a c : Codeword) : metric reference a (c.toList.map softBit) = evenWord (score a.toList c.toList) := by
  have : reference.zero = evenWord 0 := by decide +kernel
  rw [metric, this, metricFrom_softBit (by simp) (by simp) (by simp)]
  simp

theorem metrics_softBit (g : Gen) (l : ℕ) (c : Codeword) :
    metrics reference (codewordTable g l) (c.toList.map softBit) =
      (List.range (2 ^ l)).map fun i => evenWord (score (encodeCore g l (be i l)).toList c.toList) := by
  rw [metrics, codewordTable, List.map_map]
  refine List.map_congr_left fun i _ => ?_
  rw [Function.comp_apply, metric_softBit]

end Sys2Proof.Machine
end

