-- ==== Sys2Proof/Laws/PerInstr.lean ====
section
/-! SUPPORT. What is said of every instruction, one lemma per constructor: the fields of its command word (R51). -/

namespace Sys2Proof.Laws.WordFields

/-- The word's four fields are the opcode, RSV = 0, the L field and the N field of the instruction (R51, R53). -/
def Statement (i : Instr) : Prop :=
  opField (encode i) = i.opcode ∧ rsvField (encode i) = 0 ∧ lField (encode i) = BitVec.ofNat 8 i.lengthField ∧
    nField (encode i) = BitVec.ofNat 16 i.countField

/-- A word put together from four fields has these fields. -/
theorem fields_of_append (n : BitVec 16) (l : BitVec 8) (r o : BitVec 4) :
    opField (n ++ l ++ r ++ o) = o ∧ rsvField (n ++ l ++ r ++ o) = r ∧ lField (n ++ l ++ r ++ o) = l ∧
      nField (n ++ l ++ r ++ o) = n := by
  have hn := n.isLt
  have hl := l.isLt
  have hr := r.isLt
  have ho := o.isLt
  have h : (n ++ l ++ r ++ o).toNat = ((n.toNat * 2 ^ 8 + l.toNat) * 2 ^ 4 + r.toNat) * 2 ^ 4 + o.toNat := by
    simp only [BitVec.toNat_append]
    rw [← Nat.shiftLeft_add_eq_or_of_lt hl, ← Nat.shiftLeft_add_eq_or_of_lt hr, ← Nat.shiftLeft_add_eq_or_of_lt ho]
    simp only [Nat.shiftLeft_eq]
  refine ⟨?_, ?_, ?_, ?_⟩ <;> apply BitVec.eq_of_toNat_eq <;>
    simp only [opField, rsvField, lField, nField, BitVec.extractLsb'_toNat, h, Nat.shiftRight_eq_div_pow] <;> omega

theorem holds (i : Instr) : Statement i := fields_of_append _ _ _ _

theorem encCfg (l : Nat) : Statement (.encCfg l) := holds _
theorem encode (n : Nat) : Statement (.encode n) := holds _
theorem modulate (n : Nat) : Statement (.modulate n) := holds _
theorem chanCfg : Statement .chanCfg := holds _
theorem transmit (n : Nat) : Statement (.transmit n) := holds _
theorem demodulate (n : Nat) : Statement (.demodulate n) := holds _
theorem decCfg (l : Nat) : Statement (.decCfg l) := holds _
theorem decode (n : Nat) : Statement (.decode n) := holds _
theorem reset : Statement .reset := holds _

end Sys2Proof.Laws.WordFields
end

