-- ==== Sys2Proof/Laws/Rounding.lean ====
section
/-! SUPPORT. Rounding to nearest even, said once: `roundBits` of an exact value (and of a value that stands for an inexact
quotient or root by its last, sticky, bit) is the magnitude word nearest to it. Lengths are in units of 2^(-1074). -/

namespace Sys2Proof.Machine.Binary64

/-- `n` is the integer nearest to `X / P`, the even one of two that are as near. -/
def IsRounding (X P : ℝ) (n : ℕ) : Prop :=
  2 * X - P ≤ 2 * (n * P) ∧ 2 * (n * P) ≤ 2 * X + P ∧
    (2 * (n * P) = 2 * X + P ∨ 2 * (n * P) = 2 * X - P → n % 2 = 0)

/-- The same in integers, for `roundShift`. -/
theorem roundShift_spec (m k : ℕ) :
    2 * m ≤ 2 * (roundShift m k * 2 ^ k) + 2 ^ k ∧ 2 * (roundShift m k * 2 ^ k) ≤ 2 * m + 2 ^ k ∧
    (2 * (roundShift m k * 2 ^ k) = 2 * m + 2 ^ k ∨ 2 * (roundShift m k * 2 ^ k) + 2 ^ k = 2 * m →
      roundShift m k % 2 = 0) := by
  have hd : 2 ^ k * (m / 2 ^ k) + m % 2 ^ k = m := Nat.div_add_mod m (2 ^ k)
  have hr : m % 2 ^ k < 2 ^ k := Nat.mod_lt _ (by positivity)
  simp only [roundShift, Nat.shiftRight_eq_div_pow]
  generalize m / 2 ^ k = f at *
  generalize m % 2 ^ k = r at *
  generalize 2 ^ k = P at *
  have hc : f * P = P * f := Nat.mul_comm _ _
  split
  · next h =>
    rw [Nat.add_mul, hc]
    refine ⟨by omega, by omega, ?_⟩
    rintro (h2 | h2)
    · omega
    · omega
  · next h =>
    rw [hc]
    refine ⟨by omega, by omega, ?_⟩
    rintro (h2 | h2)
    · omega
    · omega

theorem isRounding_roundShift (m k : ℕ) : IsRounding m (2 ^ k) (roundShift m k) := by
  obtain ⟨h1, h2, h3⟩ := roundShift_spec m k
  refine ⟨?_, by exact_mod_cast h2, ?_⟩
  · have : (2 * m : ℝ) ≤ 2 * (roundShift m k * 2 ^ k) + 2 ^ k := by exact_mod_cast h1
    linarith
  · rintro (h | h)
    · exact h3 (.inl (by exact_mod_cast h))
    · refine h3 (.inr ?_)
      have : (2 * (roundShift m k * 2 ^ k) + 2 ^ k : ℝ) = 2 * m := by linarith
      exact_mod_cast this

/-- A number with a sticky last bit, `2⌊x⌋` or `2⌊x⌋ + 1`, rounds as `2x` does, if two bits or more are dropped. -/
theorem isRounding_sticky {x : ℝ} {a s k : ℕ} (hk : 2 ≤ k) (ha : (a : ℝ) ≤ x) (hx : x < a + 1)
    (hs : s = if x = a then 0 else 1) : IsRounding (2 * x) (2 ^ k) (roundShift (2 * a + s) k) := by
  obtain ⟨h1, h2, h3⟩ := roundShift_spec (2 * a + s) k
  obtain ⟨j, rfl⟩ : ∃ j, k = j + 2 := ⟨k - 2, by omega⟩
  generalize roundShift (2 * a + s) (j + 2) = n at *
  have hP : (2 : ℕ) ^ (j + 2) = 4 * 2 ^ j := by ring
  have hPr : (2 : ℝ) ^ (j + 2) = 4 * 2 ^ j := by ring
  rw [hP] at h1 h2 h3
  rw [IsRounding, hPr]
  have hc : n * (4 * 2 ^ j) = 4 * (n * 2 ^ j) := by ring
  have hcr : (n : ℝ) * (4 * 2 ^ j) = 4 * ((n * 2 ^ j : ℕ) : ℝ) := by push_cast; ring
  have hQ : (2 : ℝ) ^ j = ((2 ^ j : ℕ) : ℝ) := by push_cast; rfl
  rw [hc] at h1 h2 h3
  rw [hcr, hQ]
  generalize n * 2 ^ j = A at *
  generalize 2 ^ j = Q at *
  have hsx : s = 0 ∧ x = a ∨ s = 1 ∧ (a : ℝ) < x := by
    by_cases h : x = a
    · exact .inl ⟨by simp [hs, h], h⟩
    · exact .inr ⟨by simp [hs, h], lt_of_le_of_ne ha (Ne.symm h)⟩
  rcases hsx with ⟨rfl, rfl⟩ | ⟨rfl, hlt⟩
  · refine ⟨?_, ?_, ?_⟩
    · have : (2 * (2 * a + 0) : ℝ) ≤ 2 * (4 * A) + 4 * Q := by exact_mod_cast h1
      linarith
    · have : (2 * (4 * A) : ℝ) ≤ 2 * (2 * a + 0) + 4 * Q := by exact_mod_cast h2
      linarith
    · rintro (h | h)
      · refine h3 (.inl ?_)
        have : (2 * (4 * A) : ℝ) = 2 * (2 * a + 0) + 4 * Q := by linarith
        exact_mod_cast this
      · refine h3 (.inr ?_)
        have : (2 * (4 * A) + 4 * Q : ℝ) = 2 * (2 * a + 0) := by linarith
        exact_mod_cast this
  · have e1 : a + 1 ≤ 2 * A + Q := by omega
    have e2 : 2 * A ≤ a + Q := by omega
    have e1r : (a + 1 : ℝ) ≤ 2 * A + Q := by exact_mod_cast e1
    have e2r : (2 * A : ℝ) ≤ a + Q := by exact_mod_cast e2
    refine ⟨by linarith, by linarith, ?_⟩
    rintro (h | h) <;> linarith

/-- A rounding is as near as any integer; where another integer is as near, it is even. -/
theorem IsRounding.le {X P : ℝ} {n : ℕ} (h : IsRounding X P n) (hP : 0 < P) (j : ℕ) :
    |n * P - X| ≤ |j * P - X| ∧ (|n * P - X| = |j * P - X| → j ≠ n → n % 2 = 0) := by
  obtain ⟨h1, h2, h3⟩ := h
  have hn : |n * P - X| ≤ P / 2 := abs_le.mpr ⟨by linarith, by linarith⟩
  rcases lt_trichotomy j n with hj | hj | hj
  · have hj' : (j + 1 : ℝ) * P ≤ n * P := by
      have : (j + 1 : ℝ) ≤ n := by exact_mod_cast hj
      exact mul_le_mul_of_nonneg_right this hP.le
    have : P / 2 ≤ |j * P - X| := by
      rw [le_abs]; right; linarith
    refine ⟨hn.trans this, fun he _ => h3 ?_⟩
    have hlt : j * P - X < 0 := by linarith
    rw [abs_of_neg hlt] at he this
    have : |n * P - X| = P / 2 := le_antisymm hn (by linarith)
    rcases abs_choice (n * P - X) with hc | hc <;> rw [hc] at this
    · left; linarith
    · right; linarith
  · subst hj; exact ⟨le_rfl, fun _ h => absurd rfl h⟩
  · have hj' : (n + 1 : ℝ) * P ≤ j * P := by
      have : (n + 1 : ℝ) ≤ j := by exact_mod_cast hj
      exact mul_le_mul_of_nonneg_right this hP.le
    have : P / 2 ≤ |j * P - X| := by
      rw [le_abs]; left; linarith
    refine ⟨hn.trans this, fun he _ => h3 ?_⟩
    have hgt : 0 ≤ j * P - X := by linarith
    rw [abs_of_nonneg hgt] at he this
    have : |n * P - X| = P / 2 := le_antisymm hn (by linarith)
    rcases abs_choice (n * P - X) with hc | hc <;> rw [hc] at this
    · left; linarith
    · right; linarith

/-! ## Magnitude words -/

/-- The significand of a magnitude word, as in `mant`. -/
def mantBits (b : ℕ) : ℕ := if b / 2 ^ 52 = 0 then b % 2 ^ 52 else 2 ^ 52 + b % 2 ^ 52

/-- The length a magnitude word stands for, in units of 2^(-1074). -/
def units (b : ℕ) : ℕ := mantBits b * 2 ^ (b / 2 ^ 52 - 1)

theorem mant_eq (x : Num64) : mant x = mantBits (magnitude x) := by
  have : x.toNat % 2 ^ 52 = x.toNat % 2 ^ 63 % 2 ^ 52 := by omega
  simp only [mant, mantBits, exponent, fraction, magnitude, this]
  rfl

theorem mantBits_lt (b : ℕ) : mantBits b < 2 ^ 53 := by
  have : b % 2 ^ 52 < 2 ^ 52 := Nat.mod_lt _ (by norm_num)
  rw [mantBits]; split <;> omega

/-- A finite word's value is its units with its sign. -/
theorem value_eq (x : Num64) : value x = (if sign x then -1 else 1) * (units (magnitude x) : ℚ) / 2 ^ 1074 := by
  simp [value, units, mant_eq, quantum, exponent]

/-- The word `n + q·2^52` has significand n at quantum q, with the carry where n = 2^53. -/
theorem units_pack {n q : ℕ} (hn : n ≤ 2 ^ 53) (hq : q = 0 ∨ 2 ^ 52 ≤ n) :
    units (n + q * 2 ^ 52) = n * 2 ^ q ∧ (n % 2 = 0 → mantBits (n + q * 2 ^ 52) % 2 = 0) := by
  rcases Nat.lt_or_ge n (2 ^ 52) with h | h
  · obtain rfl : q = 0 := by omega
    have hd : (n + 0 * 2 ^ 52) / 2 ^ 52 = 0 := by omega
    have hm : (n + 0 * 2 ^ 52) % 2 ^ 52 = n := by omega
    simp only [units, mantBits, hd, hm]
    simp
  · rcases Nat.lt_or_ge n (2 ^ 53) with h' | h'
    · have hd : (n + q * 2 ^ 52) / 2 ^ 52 = q + 1 := by omega
      have hm : (n + q * 2 ^ 52) % 2 ^ 52 = n - 2 ^ 52 := by omega
      simp only [units, mantBits, hd, hm]
      have : 2 ^ 52 + (n - 2 ^ 52) = n := by omega
      rw [if_neg (by omega), this]
      exact ⟨by rw [Nat.add_sub_cancel], id⟩
    · obtain rfl : n = 2 ^ 53 := by omega
      have hd : (2 ^ 53 + q * 2 ^ 52) / 2 ^ 52 = q + 2 := by omega
      have hm : (2 ^ 53 + q * 2 ^ 52) % 2 ^ 52 = 0 := by omega
      simp only [units, mantBits, hd, hm]
      refine ⟨?_, by simp⟩
      simp only [Nat.add_eq_zero_iff, OfNat.ofNat_ne_zero, and_false, if_false, Nat.add_zero]
      rw [show q + 2 - 1 = q + 1 by omega]
      ring

/-- Each finite length is a multiple of 2^q, or below 2^(52+q). -/
theorem units_multiple_or_lt (b q : ℕ) : (∃ j, units b = j * 2 ^ q) ∨ units b < 2 ^ (52 + q) := by
  rcases Nat.lt_or_ge (b / 2 ^ 52 - 1) q with h | h
  · right
    have h1 := mantBits_lt b
    calc units b < 2 ^ 53 * 2 ^ (b / 2 ^ 52 - 1) := by
          exact Nat.mul_lt_mul_of_pos_right h1 (by positivity)
      _ = 2 ^ (53 + (b / 2 ^ 52 - 1)) := by rw [pow_add]
      _ ≤ 2 ^ (52 + q) := Nat.pow_le_pow_right (by norm_num) (by omega)
  · left
    refine ⟨mantBits b * 2 ^ (b / 2 ^ 52 - 1 - q), ?_⟩
    rw [units, Nat.mul_assoc, ← pow_add]
    congr 2; omega

/-- The magnitude word of the length X rounded to nearest even: nearest, even where another is as near, and infinity from
halfway beyond the greatest finite length on. -/
structure NearestBits (X : ℝ) (b : ℕ) : Prop where
  le_inf : b ≤ infBits
  overflow : b = infBits ↔ (2 ^ 2098 - 2 ^ 2044 : ℝ) ≤ X
  nearest : b < infBits → ∀ z < infBits, |(units b : ℝ) - X| ≤ |(units z : ℝ) - X| ∧
    (|(units b : ℝ) - X| = |(units z : ℝ) - X| → units z ≠ units b → mantBits b % 2 = 0)

theorem nearestBits_of_isRounding {X : ℝ} {n q : ℕ} (h : IsRounding X (2 ^ q) n)
    (hX : X < 2 ^ (53 + q)) (hq : q = 0 ∨ (2 : ℝ) ^ (52 + q) ≤ X) :
    NearestBits X (min (n + q * 2 ^ 52) infBits) := by
  have hP : (0 : ℝ) < 2 ^ q := by positivity
  have hn53 : n ≤ 2 ^ 53 := by
    by_contra hc
    have h1 : (2 ^ 53 + 1 : ℝ) ≤ n := by exact_mod_cast Nat.lt_of_not_le hc
    have h2 : (2 ^ 53 + 1 : ℝ) * 2 ^ q ≤ n * 2 ^ q := mul_le_mul_of_nonneg_right h1 hP.le
    rw [pow_add] at hX
    linarith [h.2.1]
  have hn52 : q = 0 ∨ 2 ^ 52 ≤ n := by
    refine hq.imp_right fun hq => ?_
    by_contra hc
    have h1 : (n + 1 : ℝ) ≤ 2 ^ 52 := by exact_mod_cast Nat.lt_of_not_le hc
    have h2 : (n + 1 : ℝ) * 2 ^ q ≤ 2 ^ 52 * 2 ^ q := mul_le_mul_of_nonneg_right h1 hP.le
    rw [pow_add] at hq
    linarith [h.1]
  obtain ⟨hu, hm⟩ := units_pack hn53 hn52
  refine ⟨min_le_right _ _, ?_, ?_⟩
  · rw [min_eq_right_iff]
    have e1 : (2 : ℝ) ^ 2098 = 2 ^ 53 * 2 ^ 2045 := by rw [← pow_add]
    have e2 : 2 * (2 : ℝ) ^ 2044 = 2 ^ 2045 := by rw [← pow_succ']
    have hI : infBits = 2047 * 2 ^ 52 := rfl
    rw [hI, e1]
    constructor
    · intro hle
      have hq45 : 2045 ≤ q := by omega
      rcases Nat.eq_or_lt_of_le hq45 with rfl | hq46
      · obtain rfl : n = 2 ^ 53 := by omega
        have hc : ((2 ^ 53 : ℕ) : ℝ) = 2 ^ 53 := by norm_num
        have := h.2.1
        rw [hc] at this
        clear hX hq hu
        generalize (2 : ℝ) ^ 2045 = P at *
        generalize (2 : ℝ) ^ 2044 = Q at *
        linarith
      · have hqX : (2 : ℝ) ^ (52 + q) ≤ X := hq.resolve_left (by omega)
        have : (2 : ℝ) ^ (52 + 2046) ≤ 2 ^ (52 + q) := pow_le_pow_right₀ (by norm_num) (by omega)
        rw [show 52 + 2046 = 53 + 2045 by rfl, pow_add] at this
        have h0 : (0 : ℝ) < 2 ^ 2044 := by positivity
        have h1 := this.trans hqX
        clear hX hq hqX this e1 e2
        generalize (2 : ℝ) ^ 2045 = P at *
        generalize (2 : ℝ) ^ 2044 = Q at *
        linarith
    · intro hle
      have hq45 : 2045 ≤ q := by
        by_contra hc
        have h1 : (2 : ℝ) ^ (53 + q) ≤ 2 ^ (53 + 2044) := pow_le_pow_right₀ (by norm_num) (by omega)
        rw [pow_add 2 53 2044] at h1
        have : (0 : ℝ) < 2 ^ 2044 := by positivity
        have e3 : (2 : ℝ) ^ 2045 = 2 * 2 ^ 2044 := e2.symm
        rw [e3] at hle
        have h2 := hX.trans_le h1
        clear hX hq h1 e1 e2 e3
        generalize (2 : ℝ) ^ 2044 = Q at *
        linarith
      rcases Nat.eq_or_lt_of_le hq45 with rfl | hq46
      · have h1 := h.1
        have hn1 : 2 ^ 53 ≤ n + 1 := by
          have : (2 ^ 53 : ℝ) ≤ n + 1 := by
            refine le_of_mul_le_mul_right ?_ hP
            clear hX hq hu e1
            generalize (2 : ℝ) ^ 2045 = P at *
            generalize (2 : ℝ) ^ 2044 = Q at *
            linarith
          exact_mod_cast this
        have hne : n ≠ 2 ^ 53 - 1 := by
          intro hc
          have hnr : (n : ℝ) = 2 ^ 53 - 1 := by
            rw [hc]; norm_num
          have hpar := h.2.2 (.inr (by
            have h4 : 2 * ((n : ℝ) * 2 ^ 2045) = 2 * (2 ^ 53 * 2 ^ 2045) - 2 * 2 ^ 2045 := by
              rw [hnr]; generalize (2 : ℝ) ^ 2045 = P; ring
            clear hX hq hu e1
            generalize (2 : ℝ) ^ 2045 = P at *
            generalize (2 : ℝ) ^ 2044 = Q at *
            linarith))
          omega
        omega
      · have := hn52.resolve_left (by omega)
        omega
  · intro hlt z hz
    have hb : min (n + q * 2 ^ 52) infBits = n + q * 2 ^ 52 := by omega
    rw [hb, hu]
    have hcast : ((n * 2 ^ q : ℕ) : ℝ) = n * 2 ^ q := by push_cast; ring
    rw [hcast]
    have grid : ∀ j : ℕ, |(n : ℝ) * 2 ^ q - X| ≤ |((j * 2 ^ q : ℕ) : ℝ) - X| ∧
        (|(n : ℝ) * 2 ^ q - X| = |((j * 2 ^ q : ℕ) : ℝ) - X| → j ≠ n → n % 2 = 0) := by
      intro j
      have := h.le hP j
      push_cast
      exact this
    rcases units_multiple_or_lt z q with ⟨j, hj⟩ | hj
    · rw [hj]
      refine ⟨(grid j).1, fun he hne => hm ((grid j).2 he ?_)⟩
      rintro rfl; exact hne rfl
    · rcases hq with rfl | hq
      · refine ⟨?_, fun he hne => hm ((grid (units z)).2 (by simpa using he) ?_)⟩
        · simpa using (grid (units z)).1
        · intro hc; apply hne; simpa using hc
      · have hzr : (units z : ℝ) < 2 ^ (52 + q) := by exact_mod_cast hj
        have h1 := (grid (2 ^ 52)).1
        have h2 : |((2 ^ 52 * 2 ^ q : ℕ) : ℝ) - X| = X - 2 ^ (52 + q) := by
          rw [abs_of_nonpos]
          · push_cast; rw [pow_add]; ring
          · push_cast; rw [pow_add] at hq; linarith
        have h3 : |(units z : ℝ) - X| = X - units z := by
          rw [abs_of_neg (by linarith)]; ring
        rw [h2] at h1
        rw [h3]
        refine ⟨by linarith, fun he => ?_⟩
        exfalso; linarith

/-! ## `roundBits` -/

/-- The quantum of the result fits the binade of the exact length. -/
theorem resultQuantum_spec {m : ℕ} {e : ℤ} {X : ℝ} (hlo : 0 < resultQuantum m e → (2 : ℝ) ^ ((m.log2 : ℤ) + e) ≤ X)
    (hhi : X < (2 : ℝ) ^ ((m.log2 : ℤ) + 1 + e)) :
    X < 2 ^ (53 + resultQuantum m e) ∧ (resultQuantum m e = 0 ∨ (2 : ℝ) ^ (52 + resultQuantum m e) ≤ X) := by
  have hq : (resultQuantum m e : ℤ) = max (e + m.log2 - 52) 0 := Int.toNat_eq_max _
  generalize resultQuantum m e = q at *
  constructor
  · refine hhi.trans_le ?_
    rw [← zpow_natCast]
    exact zpow_le_zpow_right₀ (by norm_num) (by push_cast; omega)
  · rcases Nat.eq_zero_or_pos q with h | h
    · exact .inl h
    · right
      refine le_trans ?_ (hlo h)
      rw [← zpow_natCast]
      exact zpow_le_zpow_right₀ (by norm_num) (by push_cast; omega)

theorem log2_bounds {m : ℕ} (hm : m ≠ 0) : 2 ^ m.log2 ≤ m ∧ m < 2 ^ (m.log2 + 1) :=
  ⟨Nat.log2_self_le hm, Nat.lt_log2_self⟩

/-- An exact length, rounded. -/
theorem nearestBits_roundBits (m : ℕ) (e : ℤ) : NearestBits (m * (2 : ℝ) ^ e) (roundBits m e) := by
  rcases Nat.eq_zero_or_pos m with rfl | hm
  · have := nearestBits_of_isRounding (X := 0) (n := 0) (q := 0) ⟨by norm_num, by norm_num, fun _ => rfl⟩
      (by norm_num) (.inl rfl)
    simpa [roundBits] using this
  have h2 : (0 : ℝ) < (2 : ℝ) ^ e := by positivity
  obtain ⟨hl, hu⟩ := log2_bounds hm.ne'
  obtain ⟨h53, h52⟩ := resultQuantum_spec (m := m) (e := e) (X := m * (2 : ℝ) ^ e)
    (by
      intro _
      rw [zpow_add₀ (by norm_num), zpow_natCast]
      exact mul_le_mul_of_nonneg_right (by exact_mod_cast hl) h2.le)
    (by
      rw [zpow_add₀ (by norm_num)]
      refine mul_lt_mul_of_pos_right ?_ h2
      rw [← Nat.cast_add_one, zpow_natCast]
      exact_mod_cast hu)
  rw [roundBits, if_neg hm.ne']
  refine nearestBits_of_isRounding ?_ h53 h52
  rw [roundMant]
  generalize resultQuantum m e = q
  split
  · next hqe =>
    obtain ⟨d, hd⟩ : ∃ d : ℕ, e = d + q := ⟨(e - q).toNat, by omega⟩
    have hdn : (e - (q : ℤ)).toNat = d := by omega
    rw [hdn, Nat.shiftLeft_eq]
    have : (m * (2 : ℝ) ^ e) = ((m * 2 ^ d : ℕ) : ℝ) * 2 ^ q := by
      rw [hd, zpow_add₀ (by norm_num)]; push_cast; simp only [zpow_natCast]; ring
    have hP : (0 : ℝ) < 2 ^ q := by positivity
    rw [this]
    refine ⟨by linarith, by linarith, ?_⟩
    rintro (h | h) <;> linarith
  · next hqe =>
    obtain ⟨k, hk⟩ : ∃ k : ℕ, (q : ℤ) = e + k := ⟨(q - e).toNat, by omega⟩
    have hkn : ((q : ℤ) - e).toNat = k := by omega
    rw [hkn]
    obtain ⟨r1, r2, r3⟩ := isRounding_roundShift m k
    have hP : (2 : ℝ) ^ q = 2 ^ k * (2 : ℝ) ^ e := by
      rw [← zpow_natCast, hk, zpow_add₀ (by norm_num), zpow_natCast]; ring
    rw [IsRounding, hP]
    generalize roundShift m k = n at *
    have key : ∀ a b : ℝ, a ≤ b → a * (2 : ℝ) ^ e ≤ b * (2 : ℝ) ^ e := fun a b h =>
      mul_le_mul_of_nonneg_right h h2.le
    refine ⟨?_, ?_, ?_⟩
    · have := key _ _ r1; linarith
    · have := key _ _ r2; linarith
    · rintro (h | h)
      · refine r3 (.inl (mul_right_cancel₀ h2.ne' ?_)); linarith
      · refine r3 (.inr (mul_right_cancel₀ h2.ne' ?_)); linarith

/-- A length `2x · 2^e` given by its sticky number `2⌊x⌋` or `2⌊x⌋ + 1`, rounded. -/
theorem nearestBits_sticky {x : ℝ} {a s : ℕ} (e : ℤ) (ha : (a : ℝ) ≤ x) (hx : x < a + 1)
    (hs : s = if x = a then 0 else 1) (hbig : 2 ^ 54 ≤ a ∨ e ≤ -2) :
    NearestBits (2 * x * (2 : ℝ) ^ e) (roundBits (2 * a + s) e) := by
  have h2 : (0 : ℝ) < (2 : ℝ) ^ e := by positivity
  have hs1 : s ≤ 1 := by rw [hs]; split <;> simp
  rcases Nat.eq_zero_or_pos (2 * a + s) with hm0 | hmpos
  · have ha0 : a = 0 := by omega
    have hs0 : s = 0 := by omega
    have hx0 : x = 0 := by
      by_contra hc
      rw [hs0, ha0, if_neg (by simpa using hc)] at hs
      omega
    simpa [hm0, hx0] using nearestBits_roundBits 0 e
  have hm : 2 * a + s ≠ 0 := hmpos.ne'
  obtain ⟨hl, hu⟩ := log2_bounds hm
  have hqe : e + 2 ≤ (resultQuantum (2 * a + s) e : ℤ) := by
    rw [resultQuantum, Int.toNat_eq_max]
    rcases hbig with h | h
    · have : 55 ≤ (2 * a + s).log2 := by rw [Nat.le_log2 hm]; omega
      omega
    · omega
  have hlog : 0 < resultQuantum (2 * a + s) e → 1 ≤ (2 * a + s).log2 := by
    intro hq
    rcases hbig with h | h
    · rw [Nat.le_log2 hm]; omega
    · rw [resultQuantum] at hq; omega
  have hlo : 1 ≤ (2 * a + s).log2 → (2 : ℝ) ^ (2 * a + s).log2 ≤ 2 * x := by
    intro h1
    obtain ⟨j, hj⟩ : ∃ j, (2 * a + s).log2 = j + 1 := ⟨(2 * a + s).log2 - 1, by omega⟩
    rw [hj, pow_succ] at hl ⊢
    have : 2 ^ j ≤ a := by omega
    have : (2 ^ j : ℝ) ≤ a := by exact_mod_cast this
    linarith
  have hhi : 2 * x < (2 : ℝ) ^ ((2 * a + s).log2 + 1) := by
    rw [pow_succ] at hu ⊢
    have : a + 1 ≤ 2 ^ (2 * a + s).log2 := by omega
    have : (a + 1 : ℝ) ≤ 2 ^ (2 * a + s).log2 := by exact_mod_cast this
    linarith
  obtain ⟨h53, h52⟩ := resultQuantum_spec (m := 2 * a + s) (e := e) (X := 2 * x * (2 : ℝ) ^ e)
    (by
      intro hq
      rw [zpow_add₀ (by norm_num), zpow_natCast]
      exact mul_le_mul_of_nonneg_right (hlo (hlog hq)) h2.le)
    (by
      rw [zpow_add₀ (by norm_num)]
      refine mul_lt_mul_of_pos_right ?_ h2
      rw [← Nat.cast_add_one, zpow_natCast]
      exact hhi)
  rw [roundBits, if_neg hm]
  refine nearestBits_of_isRounding ?_ h53 h52
  rw [roundMant]
  generalize resultQuantum (2 * a + s) e = q at *
  rw [if_neg (by omega)]
  obtain ⟨k, hk⟩ : ∃ k : ℕ, (q : ℤ) = e + k := ⟨(q - e).toNat, by omega⟩
  have hkn : ((q : ℤ) - e).toNat = k := by omega
  rw [hkn]
  obtain ⟨r1, r2, r3⟩ := isRounding_sticky (k := k) (by omega) ha hx hs
  have hP : (2 : ℝ) ^ q = 2 ^ k * (2 : ℝ) ^ e := by
    rw [← zpow_natCast, hk, zpow_add₀ (by norm_num), zpow_natCast]; ring
  rw [IsRounding, hP]
  generalize roundShift (2 * a + s) k = n at *
  have key : ∀ a b : ℝ, a ≤ b → a * (2 : ℝ) ^ e ≤ b * (2 : ℝ) ^ e := fun a b h =>
    mul_le_mul_of_nonneg_right h h2.le
  refine ⟨?_, ?_, ?_⟩
  · have := key _ _ r1; linarith
  · have := key _ _ r2; linarith
  · rintro (h | h)
    · refine r3 (.inl (mul_right_cancel₀ h2.ne' ?_)); linarith
    · refine r3 (.inr (mul_right_cancel₀ h2.ne' ?_)); linarith

/-! ## Signed numbers -/

/-- A number of the other sign is no nearer, and as near only where a length is 0. -/
theorem abs_sub_le_signed {u X : ℝ} (hu : 0 ≤ u) (hX : 0 ≤ X) (s z : Bool) :
    |u - X| ≤ |(if z then -1 else 1) * u - (if s then -1 else 1) * X| ∧
    (|u - X| = |(if z then -1 else 1) * u - (if s then -1 else 1) * X| → z = s ∨ u = 0 ∨ X = 0) := by
  have h1 : |(-1) * u - 1 * X| = u + X := by rw [abs_of_nonpos (by linarith)]; ring
  have h2 : |1 * u - (-1) * X| = u + X := by rw [abs_of_nonneg (by linarith)]; ring
  have h3 : |(-1) * u - (-1) * X| = |u - X| := by rw [← abs_neg]; congr 1; ring
  have h4 : |u - X| ≤ u + X := abs_le.mpr ⟨by linarith, by linarith⟩
  have h5 : |u - X| = u + X → u = 0 ∨ X = 0 := fun h => by
    rcases abs_choice (u - X) with hc | hc <;> rw [hc] at h
    · right; linarith
    · left; linarith
  cases s <;> cases z
  · simp
  · simp only [Bool.false_eq_true, if_false, if_true, h1]; exact ⟨h4, fun h => .inr (h5 h)⟩
  · simp only [Bool.false_eq_true, if_false, if_true, h2]; exact ⟨h4, fun h => .inr (h5 h)⟩
  · simp only [if_true, h3]; simp

/-- The word of a sign and a rounded length is the signed number, rounded. -/
theorem roundsTo_withSign {X : ℝ} {b : ℕ} (h : NearestBits X b) (hX0 : 0 ≤ X) (s : Bool) :
    RoundsTo ((if s then -1 else 1) * X / 2 ^ 1074) (withSign s b) := by
  have hb63 : b < 2 ^ 63 := lt_of_le_of_lt h.le_inf (by norm_num [infBits])
  have hmag : magnitude (withSign s b) = b := magnitude_withSign s hb63
  have hsgn : sign (withSign s b) = s := sign_withSign s hb63
  have hT : (0 : ℝ) < 2 ^ 1074 := by positivity
  have habs : |(if s then -1 else 1) * X / 2 ^ 1074| = X / 2 ^ 1074 := by
    rw [abs_div, abs_mul, abs_of_nonneg hX0, abs_of_pos hT]; cases s <;> simp
  have hinf : isInf (withSign s b) = true ↔ b = infBits := by simp [isInf, hmag]
  refine ⟨?_, ?_, ?_, ?_⟩
  · simp [isNaN, hmag, h.le_inf]
  · rw [hinf, h.overflow, habs, le_div_iff₀ hT]
    have e1 : (2 : ℝ) ^ 2098 = 2 ^ 1024 * 2 ^ 1074 := by rw [← pow_add]
    have e2 : (2 : ℝ) ^ 2044 = 2 ^ 970 * 2 ^ 1074 := by rw [← pow_add]
    rw [e1, e2, ← sub_mul]
  · intro hi
    have hpos : 0 < X := by
      refine lt_of_lt_of_le ?_ (h.overflow.mp (hinf.mp hi))
      exact sub_pos.mpr (pow_lt_pow_right₀ (by norm_num) (by norm_num))
    have : 0 < X / 2 ^ 1074 := by positivity
    rw [hsgn]
    cases s
    · simp [this.le]
    · simp [neg_div, this]
  · intro hf z hz
    have hbl : b < infBits := by simpa [isFinite, hmag] using hf
    have hzl : magnitude z < infBits := by simpa [isFinite] using hz
    obtain ⟨n1, n2⟩ := h.nearest hbl _ hzl
    have hscale : ∀ w : Num64, |((value w : ℚ) : ℝ) - (if s then -1 else 1) * X / 2 ^ 1074| =
        |(if sign w then -1 else 1) * (units (magnitude w) : ℝ) - (if s then -1 else 1) * X| / 2 ^ 1074 := by
      intro w
      have hv : ((value w : ℚ) : ℝ) = (if sign w then -1 else 1) * (units (magnitude w) : ℝ) / 2 ^ 1074 := by
        rw [value_eq]; cases sign w <;> simp
      rw [hv, ← sub_div, abs_div, abs_of_pos hT]
    have hr : |(if s then -1 else 1) * (units b : ℝ) - (if s then -1 else 1) * X| = |(units b : ℝ) - X| := by
      cases s
      · simp
      · rw [← abs_neg]; simp only [if_true]; congr 1; ring
    obtain ⟨k1, k2⟩ := abs_sub_le_signed (u := units (magnitude z)) (by positivity) hX0 s (sign z)
    rw [hscale, hscale, hmag, hsgn, hr, div_le_div_iff_of_pos_right hT, div_left_inj' hT.ne']
    refine ⟨n1.trans k1, fun he hne => ?_⟩
    rw [mant_eq, hmag]
    have he2 := le_antisymm n1 (he ▸ k1)
    refine n2 he2 fun hu => ?_
    rcases k2 (he2.symm.trans he) with h0 | h0 | h0
    · exact hne (by rw [value_eq, value_eq, hmag, hsgn, h0, hu])
    · have : units (magnitude z) = 0 := by exact_mod_cast h0
      exact hne (by rw [value_eq, value_eq, hmag, ← hu, this]; simp)
    · have hz0 := (h.nearest hbl 0 (by norm_num [infBits])).1
      have hu0 : units 0 = 0 := by simp [units, mantBits]
      rw [hu0, h0] at hz0
      have : units b = 0 := by
        have : (units b : ℝ) = 0 := by simpa using hz0
        exact_mod_cast this
      exact hne (by rw [value_eq, value_eq, hmag, hu, this]; simp)

/-- `round` of an exact number. -/
theorem roundsTo_round (s : Bool) (m : ℕ) (e : ℤ) :
    RoundsTo ((if s then -1 else 1) * (m * (2 : ℝ) ^ e) / 2 ^ 1074) (round s m e) :=
  roundsTo_withSign (nearestBits_roundBits m e) (by positivity) s

/-- `round` of a number given by its sticky number. -/
theorem roundsTo_round_sticky {x : ℝ} {a d : ℕ} (s : Bool) (e : ℤ) (ha : (a : ℝ) ≤ x) (hx : x < a + 1)
    (hd : d = if x = a then 0 else 1) (hbig : 2 ^ 54 ≤ a ∨ e ≤ -2) :
    RoundsTo ((if s then -1 else 1) * (2 * x * (2 : ℝ) ^ e) / 2 ^ 1074) (round s (2 * a + d) e) := by
  have hx0 : 0 ≤ x := le_trans (by positivity) ha
  exact roundsTo_withSign (nearestBits_sticky e ha hx hd hbig) (by positivity) s

/-- Zero is zero, rounded, with either sign. -/
theorem roundsTo_zeroOf (s : Bool) : RoundsTo 0 (zeroOf s) := by
  have := roundsTo_round s 0 0
  simpa [round, roundBits, zeroOf] using this

/-! ## The exact quotients and roots the operations round -/

/-- `stickyDiv` is the sticky number of the quotient with k further bits. -/
theorem stickyDiv_spec (k n d : ℕ) (hd : d ≠ 0) : ∃ a s : ℕ, stickyDiv k n d = 2 * a + s ∧
    (a : ℝ) ≤ (n * 2 ^ k : ℝ) / d ∧ (n * 2 ^ k : ℝ) / d < a + 1 ∧
    s = (if (n * 2 ^ k : ℝ) / d = a then 0 else 1) ∧ a = n * 2 ^ k / d := by
  have hdr : (0 : ℝ) < d := by exact_mod_cast Nat.pos_of_ne_zero hd
  have hdm : d * (n * 2 ^ k / d) + n * 2 ^ k % d = n * 2 ^ k := Nat.div_add_mod _ _
  have hlt : n * 2 ^ k % d < d := Nat.mod_lt _ (Nat.pos_of_ne_zero hd)
  refine ⟨n * 2 ^ k / d, if n * 2 ^ k % d = 0 then 0 else 1, ?_, ?_, ?_, ?_, rfl⟩
  · simp only [stickyDiv, Nat.shiftLeft_eq]
  · rw [le_div_iff₀ hdr, mul_comm]
    have : d * (n * 2 ^ k / d) ≤ n * 2 ^ k := by omega
    exact_mod_cast this
  · rw [div_lt_iff₀ hdr, mul_comm _ (d : ℝ)]
    have : n * 2 ^ k < d * (n * 2 ^ k / d + 1) := by rw [Nat.mul_add]; omega
    exact_mod_cast this
  · congr 1
    rw [div_eq_iff hdr.ne', mul_comm _ (d : ℝ), eq_iff_iff]
    constructor
    · intro h
      have : n * 2 ^ k = d * (n * 2 ^ k / d) := by omega
      exact_mod_cast this
    · intro h
      have : n * 2 ^ k = d * (n * 2 ^ k / d) := by exact_mod_cast h
      omega

theorem isqrtFrom_spec (n k r : ℕ) (hlo : r * r ≤ n) (hhi : n < (r + 2 ^ (k + 1)) * (r + 2 ^ (k + 1))) :
    isqrtFrom n k r * isqrtFrom n k r ≤ n ∧ n < (isqrtFrom n k r + 1) * (isqrtFrom n k r + 1) := by
  induction k generalizing r with
  | zero =>
    rw [isqrtFrom]
    split
    · next h => exact ⟨h, by simpa [Nat.add_assoc] using hhi⟩
    · next h => exact ⟨hlo, by omega⟩
  | succ k ih =>
    rw [isqrtFrom]
    split
    · next h =>
      refine ih _ h ?_
      have : r + 2 ^ (k + 1) + 2 ^ (k + 1) = r + 2 ^ (k + 1 + 1) := by ring
      rwa [this]
    · next h => exact ih _ hlo (by omega)

theorem isqrt_spec {n : ℕ} (h : n < 2 ^ 180) : isqrt n * isqrt n ≤ n ∧ n < (isqrt n + 1) * (isqrt n + 1) :=
  isqrtFrom_spec n 89 0 (by omega) (by simpa [← pow_add] using h)

/-- `stickySqrt` is the sticky number of the root. -/
theorem stickySqrt_spec {n : ℕ} (h : n < 2 ^ 180) : ∃ a s : ℕ, stickySqrt n = 2 * a + s ∧
    (a : ℝ) ≤ Real.sqrt n ∧ Real.sqrt n < a + 1 ∧ s = (if Real.sqrt n = a then 0 else 1) ∧ a = isqrt n := by
  obtain ⟨h1, h2⟩ := isqrt_spec h
  refine ⟨isqrt n, if isqrt n * isqrt n = n then 0 else 1, rfl, ?_, ?_, ?_, rfl⟩
  · apply Real.le_sqrt_of_sq_le
    rw [sq]; exact_mod_cast h1
  · rw [Real.sqrt_lt' (by positivity), sq]; exact_mod_cast h2
  · congr 1
    rw [Real.sqrt_eq_iff_mul_self_eq (by positivity) (by positivity), eq_iff_iff]
    constructor
    · intro he; exact_mod_cast he.symm
    · intro he; exact_mod_cast he.symm

/-! ## The values of words -/

/-- A finite word is no NaN and no infinity. -/
theorem not_nan_inf_of_finite {x : Num64} (h : isFinite x = true) : isNaN x = false ∧ isInf x = false := by
  rcases classes x with h' | h' | h' <;> simp_all

theorem value_real (x : Num64) :
    ((value x : ℚ) : ℝ) = (if sign x then -1 else 1) * (mant x * 2 ^ quantum x) / 2 ^ 1074 := by
  rw [value]; push_cast; cases sign x <;> simp

/-- `signedMant` is the number in units of `2^q`. -/
theorem signedMant_value (x : Num64) {q : ℕ} (h : q ≤ quantum x) : (signedMant x q : ℝ) * 2 ^ q / 2 ^ 1074 = value x := by
  rw [value_real, signedMant, Nat.shiftLeft_eq]
  have : (2 : ℝ) ^ quantum x = 2 ^ (quantum x - q) * 2 ^ q := by rw [← pow_add]; congr 1; omega
  rw [this]
  cases sign x <;> simp <;> ring

theorem mant_eq_zero_iff (x : Num64) : mant x = 0 ↔ isZero x = true := by
  rw [mant_eq]
  simp only [mantBits, isZero, beq_iff_eq]
  constructor
  · intro h; split at h <;> omega
  · intro h; simp [h]

theorem value_eq_zero_iff (x : Num64) : value x = 0 ↔ isZero x = true := by
  rw [← mant_eq_zero_iff, value]
  cases sign x <;> simp

theorem value_nonneg {x : Num64} (h : sign x = false) : 0 ≤ value x := by
  rw [value, h]; simp only [Bool.false_eq_true, if_false, one_mul]; positivity

theorem value_nonpos {x : Num64} (h : sign x = true) : value x ≤ 0 := by
  rw [value, h, if_pos rfl, neg_one_mul, neg_div, neg_nonpos]; positivity

/-- Rounding keeps the sign, of a result that underflows or overflows too. -/
@[simp] theorem sign_round (s : Bool) (m : ℕ) (e : ℤ) : sign (Binary64.round s m e) = s := by
  refine sign_withSign s ?_
  rw [roundBits]
  split
  · norm_num
  · exact lt_of_le_of_lt (min_le_right _ _) infBits_lt

/-- The next magnitude word is one last bit greater. -/
theorem units_succ (b : ℕ) : units (b + 1) = units b + 2 ^ (b / 2 ^ 52 - 1) := by
  unfold units mantBits
  by_cases hb : b % 2 ^ 52 = 2 ^ 52 - 1
  · have h1 : (b + 1) / 2 ^ 52 = b / 2 ^ 52 + 1 := by omega
    have h2 : (b + 1) % 2 ^ 52 = 0 := by omega
    rw [h1, h2, hb]
    rcases Nat.eq_zero_or_pos (b / 2 ^ 52) with h | h
    · rw [h]; norm_num
    · have : b / 2 ^ 52 = (b / 2 ^ 52 - 1) + 1 := by omega
      rw [if_neg (by omega), if_neg (by omega)]
      generalize b / 2 ^ 52 - 1 = k at *
      rw [this]
      simp only [Nat.add_sub_cancel, pow_succ]
      ring
  · have h1 : (b + 1) / 2 ^ 52 = b / 2 ^ 52 := by omega
    have h2 : (b + 1) % 2 ^ 52 = b % 2 ^ 52 + 1 := by omega
    rw [h1, h2]
    split <;> ring

/-- Magnitude words are in the order of the numbers they stand for. -/
theorem units_strictMono : StrictMono units := strictMono_nat_of_lt_succ fun b => by
  rw [units_succ]
  have : 0 < 2 ^ (b / 2 ^ 52 - 1) := by positivity
  omega

end Sys2Proof.Machine.Binary64
end

