-- ==== Sys2Proof/Laws/Step.lean ====
section
/-! SUPPORT. All that a command, and a step, can do: the inversion lemmas the invariants are derived from. -/

namespace Sys2Proof.Machine

/-- All that a command answering a next state can have done: it was given the payload R55 calls for, and it refused with a
status other than OK, or answered OK writing no register, or it is one of the five commands that write a register, or it
is a DECODE that met a NaN metric. -/
theorem exec_cases {i : Instr} {s t : State} (h : exec i s = .next t) :
    s.payload.map Item.kind = payloadShape i ∧
    ((∃ st : Status, st ≠ .ok ∧ t = raise st s) ∨
     (∃ items, t = respond items s) ∨
     (∃ l ∈ supportedLengths, i = .encCfg l ∧ t = respond [] { s with enc := ⟨true, BitVec.ofNat 8 l⟩ }) ∨
     (i = .chanCfg ∧ ∃ snrDb sigma seed, t = respond [] { s with chan := ⟨true, snrDb, sigma, seed, 0⟩ }) ∨
     (∃ n items, i = .transmit n ∧ t = respond items { s with chan := { s.chan with k := s.chan.k + 2 * n } }) ∨
     (∃ l ∈ supportedLengths, i = .decCfg l ∧
       t = respond [] { s with dec := ⟨true, BitVec.ofNat 8 l, codewordTable s.gen l⟩ }) ∨
     (∃ n, i = .decode n ∧ t = raiseFault .nanMetric s) ∨
     (i = .reset ∧ t = respond [] { s with enc := .reset, dec := .reset, chan := .reset })) := by
  cases i with
  | encCfg l =>
    simp only [exec, execEncCfg] at h
    obtain ⟨hs, rfl⟩ := perform_eq_next h
    refine ⟨hs, ?_⟩
    dsimp only
    split
    · exact .inl ⟨_, by decide, rfl⟩
    · next hl => exact .inr (.inr (.inl ⟨l, by simpa using hl, rfl, rfl⟩))
  | encode n =>
    simp only [exec, execEncode] at h
    obtain ⟨hs, rfl⟩ := perform_eq_next h
    refine ⟨hs, ?_⟩
    dsimp only
    split
    · exact .inl ⟨_, by decide, rfl⟩
    split
    · exact .inl ⟨_, by decide, rfl⟩
    split
    · exact .inl ⟨_, by decide, rfl⟩
    · exact .inr (.inl ⟨_, rfl⟩)
  | modulate n =>
    simp only [exec, execModulate] at h
    obtain ⟨hs, rfl⟩ := perform_eq_next h
    refine ⟨hs, ?_⟩
    dsimp only
    split
    · exact .inl ⟨_, by decide, rfl⟩
    · exact .inr (.inl ⟨_, rfl⟩)
  | chanCfg =>
    simp only [exec, execChanCfg] at h
    obtain ⟨hs, rfl⟩ := perform_eq_next h
    exact ⟨hs, .inr (.inr (.inr (.inl ⟨rfl, _, _, _, rfl⟩)))⟩
  | transmit n =>
    simp only [exec, execTransmit] at h
    obtain ⟨hs, rfl⟩ := perform_eq_next h
    refine ⟨hs, ?_⟩
    dsimp only
    split
    · exact .inl ⟨_, by decide, rfl⟩
    · exact .inr (.inr (.inr (.inr (.inl ⟨n, _, rfl, rfl⟩))))
  | demodulate n =>
    simp only [exec, execDemodulate] at h
    obtain ⟨hs, rfl⟩ := perform_eq_next h
    exact ⟨hs, .inr (.inl ⟨_, rfl⟩)⟩
  | decCfg l =>
    simp only [exec, execDecCfg] at h
    obtain ⟨hs, rfl⟩ := perform_eq_next h
    refine ⟨hs, ?_⟩
    dsimp only
    split
    · exact .inl ⟨_, by decide, rfl⟩
    · next hl => exact .inr (.inr (.inr (.inr (.inr (.inl ⟨l, by simpa using hl, rfl, rfl⟩)))))
  | decode n =>
    simp only [exec, execDecode] at h
    obtain ⟨hs, rfl⟩ := perform_eq_next h
    refine ⟨hs, ?_⟩
    dsimp only
    split
    · exact .inl ⟨_, by decide, rfl⟩
    split
    · exact .inl ⟨_, by decide, rfl⟩
    split
    · exact .inr (.inr (.inr (.inr (.inr (.inr (.inl ⟨n, rfl, rfl⟩))))))
    · exact .inr (.inl ⟨_, rfl⟩)
  | reset =>
    simp only [exec, execReset] at h
    obtain ⟨hs, rfl⟩ := perform_eq_next h
    exact ⟨hs, .inr (.inr (.inr (.inr (.inr (.inr (.inr ⟨rfl, rfl⟩))))))⟩

/-- Every meaning performs its command on an admitted payload (R59, R166). -/
theorem exec_eq_perform (i : Instr) (s : State) : ∃ k, exec i s = perform (payloadShape i) s k := by
  cases i <;> simp only [exec, execEncCfg, execEncode, execModulate, execChanCfg, execTransmit, execDemodulate, execDecCfg,
    execDecode, execReset] <;> exact ⟨_, rfl⟩

/-- R59: a command is performed exactly on a payload of its shape, and gets no step on any other. -/
theorem exec_next_iff {i : Instr} {s : State} :
    (∃ t, exec i s = .next t) ↔ s.payload.map Item.kind = payloadShape i := by
  obtain ⟨k, hk⟩ := exec_eq_perform i s
  rw [hk]
  constructor
  · rintro ⟨t, h⟩
    exact (perform_eq_next h).1
  · intro h
    exact ⟨_, perform_of_shape h⟩

theorem exec_of_not_shape {i : Instr} {s : State} (h : s.payload.map Item.kind ≠ payloadShape i) :
    exec i s = .refused .notAdmitted := by
  obtain ⟨k, hk⟩ := exec_eq_perform i s
  rw [hk, perform_of_not_shape h]

/-- R131: the illegal command is performed exactly on an empty payload. -/
theorem performIllegal_of_empty {s : State} (h : s.payload = []) :
    performIllegal s = .next (raise .illegalCommand s) := by
  have : s.payload.map Item.kind = [] := by simp [h]
  simp [performIllegal, perform_of_shape this]

theorem performIllegal_eq_next {s t : State} (h : performIllegal s = .next t) :
    s.payload = [] ∧ t = raise .illegalCommand s := by
  obtain ⟨hs, ht⟩ := perform_eq_next h
  exact ⟨by simpa using hs, ht⟩

theorem step_of_fault {s : State} {f : Fault} (h : s.fault = some f) : step s = .fault f := by
  simp [step, h, stopFaulted]

theorem step_of_idle {s : State} (hf : s.fault = none) (h : s.pending = []) : step s = .next s := by
  simp [step, hf, State.nextWord, h, waitForHost]

theorem step_of_decode {s : State} {t : Transaction} {rest : List Transaction} {i : Instr} (hf : s.fault = none)
    (h : s.pending = t :: rest) (hd : decodeCmd t.word = .ok i) : step s = exec i s := by
  simp [step, hf, nextWord_of_pending h, hd]

theorem step_of_illegal {s : State} {t : Transaction} {rest : List Transaction} {e : Illegal} (hf : s.fault = none)
    (h : s.pending = t :: rest) (hd : decodeCmd t.word = .error e) : step s = performIllegal s := by
  simp [step, hf, nextWord_of_pending h, hd]

/-- All that a step answering a next state can have done: nothing where the host issued nothing, the illegal-command
response, or one command. -/
theorem step_cases {s t : State} (h : step s = .next t) :
    s.fault = none ∧
    ((s.pending = [] ∧ t = s) ∨
     (∃ tr rest, s.pending = tr :: rest ∧
       ((∃ e, decodeCmd tr.word = .error e ∧ tr.payload = [] ∧ t = raise .illegalCommand s) ∨
        (∃ i, decodeCmd tr.word = .ok i ∧ exec i s = .next t)))) := by
  cases hf : s.fault with
  | some f => rw [step_of_fault hf] at h; cases h
  | none =>
    refine ⟨rfl, ?_⟩
    cases hp : s.pending with
    | nil => rw [step_of_idle hf hp] at h; cases h; exact .inl ⟨rfl, rfl⟩
    | cons tr rest =>
      refine .inr ⟨tr, rest, rfl, ?_⟩
      cases hd : decodeCmd tr.word with
      | error e =>
        rw [step_of_illegal hf hp hd] at h
        obtain ⟨hs, ht⟩ := performIllegal_eq_next h
        exact .inl ⟨e, rfl, by rw [← payload_of_pending hp, hs], ht⟩
      | ok i =>
        rw [step_of_decode hf hp hd] at h
        exact .inr ⟨i, rfl, h⟩

end Sys2Proof.Machine
end

