-- ==== Sys2Proof/Laws/Words.lean ====
section
/-! SUPPORT. A command word and its four fields (R51): the fields as naturals, the word from its fields, the mask tests of
R53 as tests of fields, and the words an assembler line writes (R61). -/

namespace Sys2Proof

theorem opField_toNat (w : Word) : (opField w).toNat = w.toNat % 16 := by simp [opField]
theorem rsvField_toNat (w : Word) : (rsvField w).toNat = w.toNat / 16 % 16 := by
  simp [rsvField, Nat.shiftRight_eq_div_pow]
theorem lField_toNat (w : Word) : (lField w).toNat = w.toNat / 256 % 256 := by
  simp [lField, Nat.shiftRight_eq_div_pow]
theorem nField_toNat (w : Word) : (nField w).toNat = w.toNat / 65536 := by
  have := w.isLt
  simp [nField, Nat.shiftRight_eq_div_pow]; omega

/-- A word put together from four fields, as a natural. -/
theorem toNat_append_fields (n : BitVec 16) (l : BitVec 8) (r o : BitVec 4) :
    (n ++ l ++ r ++ o).toNat = n.toNat * 65536 + l.toNat * 256 + r.toNat * 16 + o.toNat := by
  simp only [BitVec.toNat_append]
  rw [← Nat.shiftLeft_add_eq_or_of_lt l.isLt, ← Nat.shiftLeft_add_eq_or_of_lt r.isLt,
    ← Nat.shiftLeft_add_eq_or_of_lt o.isLt]
  simp only [Nat.shiftLeft_eq]
  ring

/-- A word is its four fields: no bit lies outside them. -/
theorem append_fields (w : Word) : nField w ++ lField w ++ rsvField w ++ opField w = w := by
  apply BitVec.eq_of_toNat_eq
  rw [toNat_append_fields, opField_toNat, rsvField_toNat, lField_toNat, nField_toNat]
  omega

/-- A mask made of four field masks acts field by field. -/
theorem and_append_fields (w : Word) (n : BitVec 16) (l : BitVec 8) (r o : BitVec 4) :
    w &&& (n ++ l ++ r ++ o) = (nField w &&& n) ++ (lField w &&& l) ++ (rsvField w &&& r) ++ (opField w &&& o) := by
  have h : (nField w ++ lField w ++ rsvField w ++ opField w) &&& (n ++ l ++ r ++ o) =
      (nField w &&& n) ++ (lField w &&& l) ++ (rsvField w &&& r) ++ (opField w &&& o) := by
    rw [BitVec.and_append, BitVec.and_append, BitVec.and_append]
  rw [← h]
  exact congrArg (fun v : Word => v &&& (n ++ l ++ r ++ o)) (append_fields w).symm

/-- Two words put together from four fields are equal when the fields are. -/
theorem append_fields_inj {n n' : BitVec 16} {l l' : BitVec 8} {r r' o o' : BitVec 4} :
    n ++ l ++ r ++ o = n' ++ l' ++ r' ++ o' ↔ n = n' ∧ l = l' ∧ r = r' ∧ o = o' := by
  constructor
  · intro h
    have h1 := Laws.WordFields.fields_of_append n l r o
    have h2 := Laws.WordFields.fields_of_append n' l' r' o'
    rw [h] at h1
    exact ⟨h1.2.2.2.symm.trans h2.2.2.2, h1.2.2.1.symm.trans h2.2.2.1, h1.2.1.symm.trans h2.2.1, h1.1.symm.trans h2.1⟩
  · rintro ⟨rfl, rfl, rfl, rfl⟩; rfl

/-- The three masks of R53: all of the word but L, all but N, all. -/
theorem mask_noLength (w : Word) (o : BitVec 4) :
    w &&& 0xFFFF00FF = 0#16 ++ 0#8 ++ 0#4 ++ o ↔ nField w = 0 ∧ rsvField w = 0 ∧ opField w = o := by
  rw [show (0xFFFF00FF : Word) = BitVec.allOnes 16 ++ 0#8 ++ BitVec.allOnes 4 ++ BitVec.allOnes 4 from rfl,
    and_append_fields, append_fields_inj]
  simp only [BitVec.and_allOnes, BitVec.and_zero, true_and]
  exact Iff.rfl

theorem mask_noCount (w : Word) (o : BitVec 4) :
    w &&& 0x0000FFFF = 0#16 ++ 0#8 ++ 0#4 ++ o ↔ lField w = 0 ∧ rsvField w = 0 ∧ opField w = o := by
  rw [show (0x0000FFFF : Word) = 0#16 ++ BitVec.allOnes 8 ++ BitVec.allOnes 4 ++ BitVec.allOnes 4 from rfl,
    and_append_fields, append_fields_inj]
  simp only [BitVec.and_allOnes, BitVec.and_zero, true_and]
  exact Iff.rfl

theorem mask_all (w : Word) (o : BitVec 4) :
    w &&& 0xFFFFFFFF = 0#16 ++ 0#8 ++ 0#4 ++ o ↔ nField w = 0 ∧ lField w = 0 ∧ rsvField w = 0 ∧ opField w = o := by
  rw [show (0xFFFFFFFF : Word) = BitVec.allOnes 16 ++ BitVec.allOnes 8 ++ BitVec.allOnes 4 ++ BitVec.allOnes 4 from rfl,
    and_append_fields, append_fields_inj]
  simp only [BitVec.and_allOnes]
  exact Iff.rfl

/-- Decoding reads the fields the word was put together from (R57). -/
theorem decodeCmd_append (n : BitVec 16) (l : BitVec 8) (o : BitVec 4) :
    decodeCmd (n ++ l ++ 0#4 ++ o) = decodeOp o l n := by
  obtain ⟨h1, h2, h3, h4⟩ := Laws.WordFields.fields_of_append n l 0#4 o
  rw [decodeCmd, h1, h2, h3, h4]
  simp

/-- `OP | N<<16`, as a natural. -/
theorem toNat_or_countBits (o : BitVec 4) (n : Nat) (h : n < 65536) :
    (BitVec.setWidth 32 o ||| Machine.countBits n).toNat = n * 65536 + o.toNat := by
  have ho := o.isLt
  rw [Machine.countBits, BitVec.toNat_or, BitVec.toNat_shiftLeft, BitVec.toNat_setWidth, BitVec.toNat_ofNat, Nat.lor_comm]
  have : (n % 2 ^ 32) <<< 16 % 2 ^ 32 = n <<< 16 := by rw [Nat.shiftLeft_eq, Nat.shiftLeft_eq]; omega
  rw [this, ← Nat.shiftLeft_add_eq_or_of_lt (by omega), Nat.shiftLeft_eq]
  omega

/-- `OP | L<<8`, as a natural. -/
theorem toNat_or_lengthBits (o : BitVec 4) (l : Byte) :
    (BitVec.setWidth 32 o ||| Machine.lengthBits l).toNat = l.toNat * 256 + o.toNat := by
  have ho := o.isLt
  have hl := l.isLt
  rw [Machine.lengthBits, BitVec.toNat_or, BitVec.toNat_shiftLeft, BitVec.toNat_setWidth, BitVec.toNat_setWidth, Nat.lor_comm]
  have : (l.toNat % 2 ^ 32) <<< 8 % 2 ^ 32 = l.toNat <<< 8 := by rw [Nat.shiftLeft_eq, Nat.shiftLeft_eq]; omega
  rw [this, ← Nat.shiftLeft_add_eq_or_of_lt (by omega), Nat.shiftLeft_eq]
  omega

/-- The command word of a well-formed instruction, as a natural (R51). -/
theorem toNat_encode {i : Instr} (h : i.wf = true) :
    (encode i).toNat = i.countField * 65536 + i.lengthField * 256 + i.opcode.toNat := by
  rw [encode, toNat_append_fields]
  cases i <;> simp [Instr.opcode, Instr.lengthField, Instr.countField, Instr.wf, countFits, lengthFits] at h ⊢ <;> exact h

/-- R61: a line's word is the command word of its instruction. -/
theorem word_assemble {line : Machine.Line} {i : Instr} (hi : line.instr = some i) (hw : i.wf = true) :
    line.assemble.word = encode i := by
  apply BitVec.eq_of_toNat_eq
  rw [toNat_encode hw]
  cases line <;> simp only [Machine.Line.instr, Option.some.injEq, reduceCtorEq] at hi <;> subst hi <;>
    simp only [Instr.wf, countFits, decide_eq_true_eq] at hw <;>
    simp only [Machine.Line.assemble, Instr.countField, Instr.lengthField, Instr.opcode, Nat.zero_mul, Nat.zero_add, Nat.add_zero]
  case encCfg l => exact toNat_or_lengthBits 1 l
  case encode d => exact toNat_or_countBits 2 _ hw
  case mod b => exact toNat_or_countBits 3 _ hw
  case transmit y => exact toNat_or_countBits 5 _ hw
  case demod x y => exact toNat_or_countBits 6 _ hw
  case decCfg l => exact toNat_or_lengthBits 7 l
  case decode x => exact toNat_or_countBits 8 _ hw
  case chanCfg => rfl
  case reset => rfl

end Sys2Proof
end

