-- ==== Sys2Proof/Tests/Slice0.lean ====
section
/-! SUPPORT. Tests of the model on the spec's own words and vectors (95_test_vectors.md, 93_implementation_defined.md I2), and
for each statement a concrete state and operands that meet its hypotheses. -/

namespace Sys2Proof.Tests

-- Checking many closed propositions at once takes more threads than the check allows for.
set_option Elab.async false

open Sys2Proof Sys2Proof.Machine Sys2Proof.Statements

/-! ## States to test on -/

/-- The first ten rows of I2's informative candidate matrix. -/
def candTop : List (List Nat) :=
  [[1, 1, 0, 0, 0, 0, 0, 0, 0, 0, 1, 1, 0],
   [1, 1, 1, 0, 0, 0, 0, 0, 0, 1, 1, 1, 0],
   [1, 0, 0, 1, 0, 0, 1, 0, 1, 1, 1, 1, 1],
   [1, 0, 1, 1, 0, 0, 0, 0, 1, 0, 1, 1, 1],
   [1, 1, 1, 1, 0, 0, 0, 1, 0, 0, 1, 1, 1],
   [1, 1, 0, 0, 1, 0, 1, 1, 1, 0, 1, 1, 1],
   [1, 0, 1, 0, 1, 0, 1, 0, 1, 1, 1, 1, 1],
   [1, 0, 0, 1, 1, 0, 0, 1, 1, 0, 1, 1, 1],
   [1, 1, 0, 1, 1, 0, 0, 1, 0, 1, 1, 1, 1],
   [1, 0, 1, 1, 1, 0, 1, 0, 0, 1, 1, 1, 1]]

/-- Its last ten rows. -/
def candBottom : List (List Nat) :=
  [[1, 0, 1, 0, 0, 1, 1, 1, 0, 1, 1, 1, 1],
   [1, 1, 1, 0, 0, 1, 1, 0, 1, 0, 1, 1, 1],
   [1, 0, 0, 1, 0, 1, 0, 1, 1, 1, 1, 1, 1],
   [1, 1, 0, 1, 0, 1, 0, 1, 0, 1, 1, 1, 1],
   [1, 0, 0, 0, 1, 1, 0, 1, 0, 0, 1, 0, 1],
   [1, 1, 0, 0, 1, 1, 1, 1, 0, 1, 1, 0, 1],
   [1, 1, 1, 0, 1, 1, 1, 0, 0, 1, 0, 1, 1],
   [1, 0, 0, 1, 1, 1, 0, 0, 1, 0, 0, 1, 1],
   [1, 1, 0, 1, 1, 1, 1, 1, 0, 0, 0, 0, 0],
   [1, 0, 0, 0, 0, 1, 1, 0, 0, 0, 0, 0, 0]]

/-- GEN_CAND (I2): not normative, used for the vectors marked "candidate". -/
def genCand : Gen := Vector.ofFn fun r => Vector.ofFn fun c => (((candTop ++ candBottom).getD r []).getD c 0) == 1

/-- A block with GEN_CAND and nothing configured. -/
def fresh : State := { State.reset with gen := genCand }

/-- The block with these transactions at its port. -/
def issued (p : List Transaction) (s : State) : State := { s with pending := p }

def encoder (l : Byte) (s : State) : State := { s with enc := ⟨true, l⟩ }
def decoder (l : Byte) (s : State) : State := { s with dec := ⟨true, l, codewordTable s.gen l.toNat⟩ }
def channel (k : Nat) (s : State) : State := { s with chan := ⟨true, 0x4024000000000000, 0x3FCC9F25C5BFEDD9, 7, k⟩ }

/-- One step on one line. -/
def on (line : Line) (s : State) : Host.Outcome State Fault Refusal := step (s.issueFirst line.assemble)

/-- What was answered. -/
def answers : Host.Outcome State Fault Refusal → List Response
  | .next s => s.responses
  | .fault _ => []
  | .refused _ => []

/-- A reading of the next state. -/
def reads {β : Type} (f : State → β) : Host.Outcome State Fault Refusal → Option β
  | .next s => some (f s)
  | .fault _ => none
  | .refused _ => none

theorem next_of_reads {β : Type} {f : State → β} {o : Host.Outcome State Fault Refusal} {b : β} (h : reads f o = some b) :
    ∃ t, o = .next t ∧ f t = b := by
  cases o with
  | next t => exact ⟨t, rfl, Option.some.inj h⟩
  | fault _ => cases h
  | refused _ => cases h

/-- A string of bits, as BitItems. -/
def bits (b : List Nat) : List Item := b.map fun x => .bit (BitVec.ofNat 8 x)

def ampWord : Num64 := 0x3FE6A09E667F3BCC
def negAmpWord : Num64 := 0xBFE6A09E667F3BCC
def infWord : Num64 := 0x7FF0000000000000
def nanWord : Num64 := 0x7FF8000000000000
def oneWord : Num64 := 0x3FF0000000000000

/-! ## WellFormed: each check refuses an ill-formed term -/

theorem test_wf_length : (Instr.encCfg 255).wf = true ∧ (Instr.encCfg 256).wf = false ∧
    (Instr.decCfg 255).wf = true ∧ (Instr.decCfg 256).wf = false := by decide

theorem test_wf_count : (Instr.encode 65535).wf = true ∧ (Instr.encode 65536).wf = false ∧
    (Instr.modulate 65536).wf = false ∧ (Instr.transmit 65536).wf = false ∧ (Instr.demodulate 65536).wf = false ∧
    (Instr.decode 65536).wf = false := by decide

/-! ## Decoding: words written out from the bit patterns of R53, N, then L, then RSV and OP -/

theorem test_decode_encCfg : decodeCmd 0b0000000000000000_00000010_0000_0001#32 = .ok (.encCfg 2) := by rfl
theorem test_decode_encode : decodeCmd 0b0000000000000010_00000000_0000_0010#32 = .ok (.encode 2) := by rfl
theorem test_decode_modulate : decodeCmd 0b0000000000010100_00000000_0000_0011#32 = .ok (.modulate 20) := by rfl
theorem test_decode_chanCfg : decodeCmd 0b0000000000000000_00000000_0000_0100#32 = .ok .chanCfg := by rfl
theorem test_decode_transmit : decodeCmd 0b0000000000001010_00000000_0000_0101#32 = .ok (.transmit 10) := by rfl
theorem test_decode_demodulate : decodeCmd 0b0000000000001010_00000000_0000_0110#32 = .ok (.demodulate 10) := by rfl
theorem test_decode_decCfg : decodeCmd 0b0000000000000000_11111111_0000_0111#32 = .ok (.decCfg 255) := by rfl
theorem test_decode_decode : decodeCmd 0b1111111111111111_00000000_0000_1000#32 = .ok (.decode 65535) := by rfl
theorem test_decode_reset : decodeCmd 0b0000000000000000_00000000_0000_1111#32 = .ok .reset := by rfl

/-- V-CD-1's ILLEGAL rows. -/
theorem test_decode_illegal : ([0x00010001, 0x00000011, 0x000000F1, 0x00000202, 0x00010004, 0x00000104, 0x00010007,
    0x0001000F, 0x0000010F, 0x00000000, 0x00000009, 0x0000000A, 0x0000000B, 0x0000000C, 0x0000000D, 0x0000000E,
    0xFFFFFFFF] : List Word).all (fun w => (decodeCmd w).toOption.isNone) = true := by decide +kernel

/-- The encoder writes R53's words. -/
theorem test_encode_words : encode (.encCfg 2) = 0x00000201 ∧ encode (.encode 65535) = 0xFFFF0002 ∧
    encode (.decCfg 4) = 0x00000407 ∧ encode .reset = 0x0000000F := by decide

/-- The table's numbering: bit 0 of a row's word is bit 0 of the command word (log 14). -/
theorem test_decodeTableWord : decodeTableWord 32 0x00140008 = some (.decode 20) ∧ decodeTableWord 32 0x00000009 = none ∧
    decodeTableWord 32 0x000000F1 = none := by decide +kernel

/-- withFetchWord: the very next step after reset runs the word. -/
theorem test_withFetchWord : answers (step (State.reset.withFetchWord 32 0x00000201)) = [⟨0x00, []⟩] ∧
    answers (step (State.reset.withFetchWord 32 0x00140008)) = [⟨0x03, []⟩] := by decide +kernel

/-! ## ENC_CFG and ENCODE (V-EN-2, V-EN-3, V-EN-5, P4) -/

theorem test_encCfg : reads (fun s => (s.enc, s.responses)) (on (.encCfg 2) (encoder 4 fresh)) = some (⟨true, 2⟩, [⟨0x00, []⟩]) := by
  decide +kernel

theorem test_encCfg_refuses : ([0, 1, 3, 5, 7, 9, 10, 12, 13, 255] : List Byte).all (fun l =>
    reads (fun s => (s.enc, s.responses)) (on (.encCfg l) (encoder 2 fresh)) == some (⟨true, 2⟩, [⟨0x01, []⟩])) = true := by
  decide +kernel

/-- V-EN-2, and V-EN-3 at L = 11, data [1,0,1,1,0,0,1,0,1,1,1]. -/
theorem test_encode : answers (on (.encode [1, 0]) (encoder 2 fresh)) =
      [⟨0x00, bits [1,1,1,1,1,1,1,1,1,1,1,1,1,1,0,0,1,1,0,0]⟩] ∧
    answers (on (.encode [1, 0, 1, 1, 0, 0, 1, 0, 1, 1, 1]) (encoder 11 fresh)) =
      [⟨0x00, bits [0,1,0,1,0,1,0,1,0,1,1,0,1,0,0,0,1,1,0,1]⟩] := by decide +kernel

/-- V-EN-5: not configured before the length, a wrong length, a non-binary element. -/
theorem test_encode_refuses : answers (on (.encode [1, 0, 1]) fresh) = [⟨0x03, []⟩] ∧
    answers (on (.encode [1, 0]) (encoder 4 fresh)) = [⟨0x02, []⟩] ∧ answers (on (.encode []) (encoder 2 fresh)) = [⟨0x02, []⟩] ∧
    answers (on (.encode [255, 0]) (encoder 2 fresh)) = [⟨0x02, []⟩] := by decide +kernel

/-! ## MODULATE (V-MO-1 to V-MO-4) -/

theorem test_modulate : answers (on (.mod [1, 0, 2, 255]) fresh) =
    [⟨0x00, [.num negAmpWord, .num ampWord, .num negAmpWord, .num negAmpWord]⟩] := by decide +kernel

theorem test_modulate_counts : answers (on (.mod []) fresh) = [⟨0x00, []⟩] ∧
    answers (on (.mod [0, 1, 1]) fresh) = [⟨0x02, []⟩] := by decide +kernel

/-! ## CHAN_CFG and TRANSMIT (V-CH-1, V-CH-2, V-CH-5) -/

theorem test_chanCfg : reads (fun s => (s.chan, s.responses)) (on (.chanCfg 0xC014000000000000 42) (channel 9 fresh)) =
    some (⟨true, 0xC014000000000000, 0x3FF41E7284162A48, 42, 0⟩, [⟨0x00, []⟩]) := by decide +kernel

/-- V-CH-1's σ at 3, −10, 20 dB. -/
theorem test_sigma : sigmaOf 0x4008000000000000 = 0x3FE004DC2AA42D94 ∧ sigmaOf 0xC024000000000000 = 0x4001E3779B97F4A8 ∧
    sigmaOf 0x4034000000000000 = 0x3FB21A1851FF630A := by decide +kernel

/-- R91's example: sample 4 on the real part, sample 5 on the imaginary part, and CHAN.K = 6 afterwards. -/
theorem test_transmit : on (.transmit [⟨ampWord, ampWord⟩]) (channel 4 fresh) =
    .next (respond [.num (Binary64.add ampWord (Config.noise 7 0x3FCC9F25C5BFEDD9 4)),
      .num (Binary64.add ampWord (Config.noise 7 0x3FCC9F25C5BFEDD9 5))]
      (channel 6 (fresh.issueFirst (Line.transmit [⟨ampWord, ampWord⟩]).assemble))) := by
  have hd : decodeCmd (Line.transmit [⟨ampWord, ampWord⟩]).assemble.word = .ok (.transmit 1) := by rfl
  have hs : ∀ s : State, s.fault = none →
      step (s.issueFirst (Line.transmit [⟨ampWord, ampWord⟩]).assemble) = exec (.transmit 1) (s.issueFirst _) :=
    fun s hf => step_of_decode hf rfl hd
  rw [on, hs (channel 4 fresh) rfl]
  have h := exec_transmit (s := (channel 4 fresh).issueFirst (Line.transmit [⟨ampWord, ampWord⟩]).assemble)
    (ys := [⟨ampWord, ampWord⟩]) rfl
  rw [show exec (.transmit 1) _ = _ from h]
  simp [addNoise, channel, State.issueFirst]

theorem test_transmit_refuses : answers (on (.transmit [⟨0, 0⟩]) fresh) = [⟨0x03, []⟩] ∧
    reads (fun s => (s.chan.k, s.responses)) (on (.transmit []) (channel 4 fresh)) = some (4, [⟨0x00, []⟩]) := by decide +kernel

/-! ## DEMODULATE (V-DM-1, V-DM-4, V-DM-7) -/

theorem test_demodulate : answers (on (.demod 0 [⟨ampWord, negAmpWord⟩, ⟨negAmpWord, ampWord⟩]) fresh) =
    [⟨0x00, [.num 0xC000000000000000, .num 0x4000000000000000, .num 0x4000000000000000, .num 0xC000000000000000]⟩] := by
  decide +kernel

/-- V-DM-4, (0.5, −0.25) at 0 dB, and V-DM-7, 0.707. -/
theorem test_demodulate_general : answers (on (.demod 0 [⟨0x3FE0000000000000, 0xBFD0000000000000⟩]) fresh) =
      [⟨0x00, [.num 0xBFF6A09E667F3BCD, .num 0x3FE6A09E667F3BCD]⟩] ∧
    answers (on (.demod 0 [⟨0x3FE69FBE76C8B439, 0xBFE69FBE76C8B439⟩]) fresh) =
      [⟨0x00, [.num 0xBFFFFEC34E5EEA93, .num 0x3FFFFEC34E5EEA93]⟩] := by decide +kernel

/-! ## DEC_CFG and DECODE (V-DE-1 to V-DE-10, P5) -/

/-- V-DE-1: entries 1 to 3 of TABLE at L = 2 and entry 15 at L = 4. -/
theorem test_decCfg : reads (fun s => (s.dec.valid, s.dec.table.map Vector.toList)) (on (.decCfg 2) fresh) =
      some (true, [[0,0,0,0,0,0,0,0,0,0,0,0,0,0,0,0,0,0,0,0], [0,0,1,1,1,1,1,1,1,1,1,1,1,1,1,1,1,1,0,0],
        [1,1,1,1,1,1,1,1,1,1,1,1,1,1,0,0,1,1,0,0], [1,1,0,0,0,0,0,0,0,0,0,0,0,0,1,1,0,0,0,0]].map (·.map (· == 1))) ∧
    reads (fun s => s.dec.table[15]?.map Vector.toList) (on (.decCfg 4) (decoder 2 fresh)) =
      some (some ([0,1,0,1,1,1,0,1,0,0,0,1,0,0,0,1,1,0,0,0].map (· == 1))) := by decide +kernel

theorem test_decCfg_refuses : reads (fun s => (s.dec.valid, s.dec.l, s.dec.table.length, s.responses))
    (on (.decCfg 7) (decoder 2 fresh)) = some (true, 2, 4, [⟨0x01, []⟩]) := by decide +kernel

/-- V-DE-2 (noiseless), V-DE-5 (a tie, the lower index wins), V-DE-6 (a three-way tie) and V-DE-7 (an infinity). -/
theorem test_decode_vectors :
    answers (on (.decode (List.replicate 14 0x4000000000000000 ++ [0xC000000000000000, 0xC000000000000000,
      0x4000000000000000, 0x4000000000000000, 0xC000000000000000, 0xC000000000000000])) (decoder 2 fresh)) =
      [⟨0x00, bits [1, 0]⟩] ∧
    answers (on (.decode (List.replicate 20 oneWord)) (decoder 2 fresh)) = [⟨0x00, bits [0, 1]⟩] ∧
    answers (on (.decode (List.replicate 20 oneWord)) (decoder 4 fresh)) = [⟨0x00, bits [0, 0, 0, 1]⟩] ∧
    answers (on (.decode (infWord :: List.replicate 19 0)) (decoder 4 fresh)) = [⟨0x00, bits [0, 0, 1, 0]⟩] := by
  decide +kernel

/-- V-DE-9 and V-DE-10. -/
theorem test_decode_refuses : answers (on (.decode (List.replicate 19 0)) (decoder 2 fresh)) = [⟨0x02, []⟩] ∧
    answers (on (.decode []) (decoder 2 fresh)) = [⟨0x02, []⟩] ∧
    answers (on (.decode (List.replicate 21 0)) (decoder 2 fresh)) = [⟨0x02, []⟩] ∧
    answers (on (.decode (List.replicate 20 0)) fresh) = [⟨0x03, []⟩] := by decide +kernel

/-! ## RESET and illegal words (V-BC-1, V-BC-4, V-CH-5) -/

theorem test_reset : reads (fun s => (s.enc.valid, s.dec.valid, s.dec.table, s.chan.valid, s.responses))
    (on .reset (encoder 2 (decoder 2 (channel 4 fresh)))) = some (false, false, [], false, [⟨0x00, []⟩]) := by decide +kernel

theorem test_illegal : reads (fun s => (s.enc, s.chan, s.responses)) (on (.word 0x00000202) (encoder 2 (channel 4 fresh))) =
    some (⟨true, 2⟩, (channel 4 fresh).chan, [⟨0x04, []⟩]) := by decide +kernel

/-! ## GEN_rank of the candidate (V-CAND-0) -/

/-- Rows of GEN_CAND whose sum picks out column 2 + i alone among columns 2 to 12. -/
def pickRows : List (List (Fin 20)) :=
  [[3, 4, 5, 6, 7, 8], [0, 1, 2, 3, 5, 7], [0, 1, 4, 8], [0, 1, 3, 6, 8, 10], [0, 1, 2, 3], [0, 1, 5, 6],
   [0, 1, 3, 4, 5, 6], [0, 1, 3, 4, 5, 6, 7, 8], [1, 2, 3, 4, 8, 10, 14], [0, 1, 2, 3, 4, 8, 10, 14], [0, 2, 5, 8]]

/-- The exclusive OR of a bit over rows. -/
def rowSum (rows : List (Fin 20)) (f : Fin 20 → Bool) : Bool := rows.foldr (fun r acc => f r ^^ acc) false

theorem pickRows_table : (List.range 11).all (fun i => (List.range 11).all fun c =>
    rowSum (pickRows.getD i []) (fun r => genBit genCand r (2 + c)) == (c == i)) = true := by decide +kernel

theorem rowSum_xorSum (rows : List (Fin 20)) (l : Nat) (f : Fin 20 → Nat → Bool) (t : Nat → Bool) :
    rowSum rows (fun r => xorSum l fun c => f r c && t c) = xorSum l fun c => rowSum rows (fun r => f r c) && t c := by
  induction rows with
  | nil => simp [rowSum]
  | cons r rows ih =>
    simp only [rowSum, List.foldr_cons] at ih ⊢
    rw [ih, ← xorSum_xor]
    refine xorSum_congr fun c _ => ?_
    cases t c <;> simp

theorem rowSum_false (rows : List (Fin 20)) : rowSum rows (fun _ => false) = false := by
  induction rows with
  | nil => rfl
  | cons r rows ih => simp only [rowSum, List.foldr_cons, Bool.false_xor] at ih ⊢; exact ih

theorem genRank_genCand : GenRank genCand := by
  intro l hl t h col hcol
  have hl11 := le_eleven_of_supported hl
  have hp : ∀ c < l, rowSum (pickRows.getD (11 - l + col) []) (fun r => genBit genCand r (13 - l + c)) = (c == col) := by
    intro c hc
    have h1 := List.all_eq_true.mp pickRows_table (11 - l + col) (by simp; omega)
    have h2 := List.all_eq_true.mp h1 (11 - l + c) (by simp; omega)
    rw [show 2 + (11 - l + c) = 13 - l + c by omega] at h2
    rw [beq_iff_eq.mp h2]
    by_cases hcc : c = col
    · simp [hcc]
    · simp [hcc]
  have h0 := rowSum_xorSum (pickRows.getD (11 - l + col) []) l (fun r c => genBit genCand r (13 - l + c)) t
  simp only [h, rowSum_false] at h0
  rw [xorSum_congr (u := fun c => (c == col) && t c) (fun c hc => by rw [hp c hc])] at h0
  rw [xorSum_single hcol (fun c _ hne => by simp [hne])] at h0
  simpa using h0.symm

/-! ## The model fault (V-DE-8, V-BC-4) -/

theorem nan_metric (l : Byte) : ∀ cw ∈ (decoder l fresh).dec.table,
    reference.isNaN (metric reference cw (nanWord :: List.replicate 19 0)) = true := fun cw _ => by
  rw [reference_isNaN]
  exact isNaN_metric_of_head cw (by decide +kernel) _

/-- A DECODE of a NaN and 19 zeros at the port. -/
def nanIssued : State := issued [⟨0x00140008, (nanWord :: List.replicate 19 0).map .num⟩] (decoder 2 fresh)

theorem nanIssued_metric : ∃ c ∈ nanIssued.dec.table,
    reference.isNaN (metric reference c (nanWord :: List.replicate 19 0)) = true := by
  have h0 : Vector.ofFn (fun _ => false) ∈ (decoder 2 fresh).dec.table := by decide +kernel
  exact ⟨_, h0, nan_metric 2 _ h0⟩

theorem test_decode_nan : step nanIssued = .next (raiseFault .nanMetric nanIssued) := by
  rw [step_of_decode (i := .decode 20) rfl rfl rfl]
  have h := exec_decode (s := nanIssued) (llr := nanWord :: List.replicate 19 0) rfl
  have hn : (metrics reference nanIssued.dec.table (nanWord :: List.replicate 19 0)).any reference.isNaN = true := by
    obtain ⟨c, hc, h⟩ := nanIssued_metric
    exact List.any_eq_true.mpr ⟨_, List.mem_map.mpr ⟨c, hc, rfl⟩, h⟩
  rw [if_neg (by decide), if_neg (by decide), if_pos hn] at h
  exact h

theorem test_faulted : step (issued [Line.reset.assemble] { fresh with fault := some .nanMetric }) = .fault .nanMetric := by
  rfl

/-! ## Witnesses: for each statement, states and operands that meet its hypotheses -/

theorem decLegal_decoder {l : Byte} (h : l.toNat ∈ supportedLengths) : DecLegal (decoder l fresh) :=
  fun _ => ⟨h, codewordTable_length _ _, fun _ hi => codewordTable_getElem? _ _ _ hi⟩

theorem witness_DecodeAgreesWithTheMasks : (0x0000FF01 : Word) &&& 0xFFFF00FF = 0x00000001 ∧
    opcodeRows.all (fun r => !r.holds 0x00010001) = true ∧ decodeCmd 0x00010001 = .error .unusedField := by decide

theorem witness_NoWordMatchesTwoRows : opcodeRows.all (fun r => opcodeRows.any fun r' => r == r' && r'.holds r.matchBits) = true := by
  decide

theorem witness_DecodingAnEncodedInstructionGivesItBack :
    ([.encCfg 0, .encCfg 255, .encode 0, .encode 65535, .modulate 65535, .chanCfg, .transmit 65535, .demodulate 65535,
      .decCfg 255, .decode 65535, .reset] : List Instr).all Instr.wf = true := by decide

theorem witness_EncodingADecodedWordGivesItBack : decodeCmd 0x0000FF01 = .ok (.encCfg 255) ∧
    decodeCmd 0xFFFF0002 = .ok (.encode 65535) := by decide

/-- One word for each clause of R58, each illegal by that clause. -/
theorem witness_IllegalWordsAnswerIllegalCommand :
    (IsIllegalWord 0x00000000 ∧ IsIllegalWord 0x00000009 ∧ IsIllegalWord 0x0000000E ∧ IsIllegalWord 0x00000011 ∧
      IsIllegalWord 0x00000102 ∧ IsIllegalWord 0x0000FF0F ∧ IsIllegalWord 0x00010001 ∧ IsIllegalWord 0xFFFF0007) ∧
    ¬ IsIllegalWord 0x0000FF01 ∧ (issued [⟨0x00000009, []⟩] fresh).fault = none ∧
    (issued [⟨0x00000009, []⟩] fresh).pending = ⟨0x00000009, []⟩ :: [] := by
  refine ⟨⟨?_, ?_, ?_, ?_, ?_, ?_, ?_, ?_⟩, ?_, rfl, rfl⟩ <;> unfold IsIllegalWord <;> decide

/-- The shortest and the longest lists; the literals of a line stand in the payload in the order written. -/
theorem witness_LinesAssembleToTheirCommands : ([] : List Byte).length < 65536 ∧ (List.replicate 65535 (1 : Byte)).length < 65536 ∧
    (Line.encode [1, 0, 255]).assemble = ⟨0x00030002, [.bit 1, .bit 0, .bit 255]⟩ ∧
    (Line.chanCfg 5 7).assemble = ⟨0x00000004, [.num 5, .seed 7]⟩ ∧
    (Line.transmit [⟨1, 2⟩, ⟨3, 4⟩]).assemble = ⟨0x00020005, [.num 1, .num 2, .num 3, .num 4]⟩ ∧
    (Line.demod 5 [⟨1, 2⟩, ⟨3, 4⟩]).assemble = ⟨0x00020006, [.num 5, .num 1, .num 2, .num 3, .num 4]⟩ ∧
    (Line.decCfg 11).assemble = ⟨0x00000B07, []⟩ ∧ (Line.word 0x00000010).assemble = ⟨0x00000010, []⟩ := by
  rw [List.length_replicate]
  decide

theorem witness_StepPerformsTheDecodedCommand : (issued [Line.reset.assemble] fresh).fault = none ∧
    (issued [Line.reset.assemble] fresh).pending = Line.reset.assemble :: [] ∧
    decodeCmd Line.reset.assemble.word = .ok .reset := ⟨rfl, rfl, rfl⟩

theorem witness_IdleBlockWaits : fresh.fault = none ∧ fresh.pending = [] := ⟨rfl, rfl⟩

/-- Payloads of the right shape, the empty ones included; a wrong type, a wrong count; an illegal word with a payload. -/
theorem witness_OnlyAdmittedTransactionsGetAStep :
    IsRequestPayload (.encode 0) [] ∧ IsRequestPayload (.encode 2) [.bit 1, .bit 255] ∧
    IsRequestPayload .chanCfg [.num nanWord, .seed 7] ∧ IsRequestPayload (.demodulate 1) [.num 0, .num 1, .num 2] ∧
    IsRequestPayload (.transmit 0) [] ∧ ¬ IsRequestPayload .reset [.bit 0] ∧ ¬ IsRequestPayload (.decode 0) [.num 0] ∧
    (IsIllegalWord 0x00000009 ∧ (⟨0x00000009, [.bit 0]⟩ : Transaction).payload ≠ [] ∧
      (issued [⟨0x00000009, [.bit 0]⟩] fresh).fault = none) := by
  refine ⟨⟨[], rfl, rfl⟩, ⟨[1, 255], rfl, rfl⟩, ⟨_, _, rfl⟩, ⟨_, [⟨1, 2⟩], rfl, rfl⟩, ⟨[], rfl, rfl⟩, by simp [IsRequestPayload], ?_,
    ?_, by simp, rfl⟩
  · rintro ⟨x, hx, h⟩
    cases x <;> simp at hx h
  · unfold IsIllegalWord; decide

theorem witness_EveryAdmittedCommandEnds :
    IsRequestPayload (.encode 2) (issued [(Line.encode [1, 0]).assemble] fresh).payload := ⟨[1, 0], rfl, rfl⟩

/-- A state and a command for every status of R141, and for the model fault. -/
theorem witness_EachCommandAnswersItsTabledStatus :
    statusOf fresh (.encCfg 11) = some 0x00 ∧ statusOf fresh (.encCfg 13) = some 0x01 ∧ statusOf fresh (.encode 2) = some 0x03 ∧
    statusOf (encoder 4 fresh) (.encode 2) = some 0x02 ∧ statusOf fresh (.modulate 65535) = some 0x02 ∧
    statusOf fresh (.decode 20) = some 0x03 ∧ statusOf (decoder 2 fresh) (.decode 21) = some 0x02 ∧
    statusOf nanIssued (.decode 20) = none ∧
    (∃ t, exec (.encCfg 11) fresh = .next t) ∧ (∃ e, decodeCmd 0x00000009 = .error e) ∧
    ∃ t, step (issued [⟨0x00000009, []⟩] fresh) = .next t := by
  refine ⟨rfl, rfl, rfl, rfl, rfl, rfl, rfl, ?_, ⟨_, rfl⟩, ⟨_, rfl⟩, _, rfl⟩
  have h : ∃ c ∈ nanIssued.dec.table, reference.isNaN (metric reference c (numsOf nanIssued.payload)) = true :=
    nanIssued_metric
  rw [statusOf, if_neg (by decide), if_neg (by decide), if_pos h]

theorem witness_NonOkStatusWritesNoState : ∃ t, step (issued [⟨0x00000009, []⟩] fresh) = .next t ∧
    t.responses = (issued [⟨0x00000009, []⟩] fresh).responses ++ [⟨0x04, []⟩] := ⟨_, rfl, rfl⟩

theorem witness_FaultIsNeverClearedAndStopsTheBlock : ({ fresh with fault := some .nanMetric } : State).fault = some .nanMetric ∧
    ∃ t, exec .reset { fresh with fault := some .nanMetric } = .next t := ⟨rfl, _, rfl⟩

theorem witness_EncCfgSetsOrKeepsTheEncoder : fresh.payload = [] ∧ 2 ∈ [2, 4, 6, 8, 11] ∧ 11 ∈ [2, 4, 6, 8, 11] ∧
    0 ∉ [2, 4, 6, 8, 11] ∧ 13 ∉ [2, 4, 6, 8, 11] ∧ 255 < 256 := by decide

/-- A state for each of ENCODE's three outcomes, both causes of INVALID_INPUT among them. -/
theorem witness_EncodeAnswersTheCodeword :
    (issued [(Line.encode [1, 0]).assemble] fresh).payload = [1, 0].map .bit ∧ fresh.enc.valid = false ∧
    (encoder 2 fresh).enc.valid = true ∧ (encoder 2 fresh).enc.l.toNat = 2 ∧ (0 ≠ (encoder 2 fresh).enc.l.toNat) ∧
    (∃ b ∈ ([1, 2] : List Byte), b ≠ 0 ∧ b ≠ 1) ∧ ∀ b ∈ ([1, 0] : List Byte), b = 0 ∨ b = 1 := by
  refine ⟨rfl, rfl, rfl, rfl, by decide, ⟨2, by simp, by decide, by decide⟩, by simp⟩

theorem witness_ZeroAndUnitVectorsEncodeToZeroAndColumns : 2 ∈ supportedLengths ∧ 11 ∈ supportedLengths ∧ 10 < 11 := by decide

theorem witness_CodingIsLinearAndInjective : GenRank genCand ∧ 2 ∈ supportedLengths ∧ [true, false].length = 2 ∧
    encodeCore genCand 2 [true, false] = encodeCore genCand 2 [true, false] := ⟨genRank_genCand, by decide, rfl, rfl⟩

theorem witness_ModulateAnswersTheSymbols : (issued [(Line.mod []).assemble] fresh).payload = [].map .bit ∧ 0 % 2 = 0 ∧
    (issued [(Line.mod [2]).assemble] fresh).payload = [2].map .bit ∧ 1 % 2 = 1 ∧ 65535 < 65536 := ⟨rfl, rfl, rfl, rfl, by decide⟩

theorem witness_ChanCfgStartsTheChannel :
    (issued [(Line.chanCfg 0 7).assemble] fresh).payload = [.num 0, .seed 7] ∧ reference.isNaN nanWord = true ∧
    reference.pow10 (reference.div 0x40AF400000000000 reference.ten) = 0x7FF0000000000000 ∧
    reference.pow10 (reference.div 0xC0AF400000000000 reference.ten) = 0x0000000000000000 := by
  refine ⟨rfl, ?_, ?_, ?_⟩ <;> decide +kernel

theorem witness_TransmitAddsTheNoiseSamplesInOrder :
    (issued [(Line.transmit [⟨ampWord, 0⟩]).assemble] fresh).payload = [ampWord, 0].map .num ∧
    fresh.chan.valid = false ∧ (channel 4 fresh).chan.valid = true ∧ ([] : List Num64).length = 2 * 0 := ⟨rfl, rfl, rfl, rfl⟩

theorem witness_SplittingATransmitChangesNothing : (channel 4 fresh).fault = none ∧ (channel 4 fresh).chan.valid = true ∧
    (issued [(Line.transmit ([⟨0, 0⟩] ++ [])).assemble] (channel 4 fresh)).pending = [(Line.transmit ([⟨0, 0⟩] ++ [])).assemble] ∧
    1 + 0 < 65536 := ⟨rfl, rfl, rfl, by decide⟩

theorem witness_NoiseIsReproducible :
    (issued ((Line.chanCfg 0 7).assemble :: [[⟨0, 0⟩], []].map fun x => (Line.transmit x).assemble) fresh).pending =
      (issued ((Line.chanCfg 0 7).assemble :: [[⟨0, 0⟩], []].map fun x => (Line.transmit x).assemble) (channel 4 fresh)).pending ∧
    fresh.fault = none ∧ (channel 4 fresh).fault = none := ⟨rfl, rfl, rfl⟩

theorem witness_DemodulateAnswersTheSoftValues : [ampWord, 0].length = 2 * 1 ∧
    (issued [(Line.demod 0 [⟨ampWord, 0⟩]).assemble] fresh).payload = .num 0 :: [ampWord, 0].map .num ∧
    (Binary64.isFinite (scaleOf 0) = true ∧ Binary64.sign (scaleOf 0) = false) ∧
    (scaleOf 0x40AF400000000000 = 0x7FF0000000000000 ∧ Binary64.isZero 0x8000000000000000 = true) ∧
    scaleOf 0xC0AF400000000000 = 0x0000000000000000 ∧ Binary64.isFinite ampWord = true := by
  refine ⟨rfl, rfl, ?_, ?_, ?_, ?_⟩ <;> decide +kernel

theorem witness_IndexExpansionIsBigEndian : 2 ∈ supportedLengths ∧ 3 < 2 ^ 2 ∧ 1 < 2 ∧ [true, true].length = 2 := by decide

theorem witness_DecCfgBuildsTheTableOrKeepsTheDecoder : fresh.payload = [] ∧ 11 ∈ [2, 4, 6, 8, 11] ∧ 7 ∉ [2, 4, 6, 8, 11] := by decide

/-- Two metrics that are ±0, and −∞: no NaN. -/
theorem witness_SearchReturnsTheLowestGreatestIndex : ([0xFFF0000000000000, 0, 0x8000000000000000] : List Num64) ≠ [] ∧
    ([0xFFF0000000000000, 0, 0x8000000000000000] : List Num64).all (fun x => !reference.isNaN x) = true ∧
    search reference [0xFFF0000000000000, 0, 0x8000000000000000] = 1 := by decide +kernel

/-- A state and LLRs for each of DECODE's outcomes. -/
theorem witness_DecodeAnswersTheMostLikelyVector :
    (issued [(Line.decode (List.replicate 20 0)).assemble] fresh).payload = (List.replicate 20 0).map .num ∧
    fresh.dec.valid = false ∧ (decoder 2 fresh).dec.valid = true ∧ DecLegal (decoder 2 fresh) ∧
    (decoder 2 fresh).dec.table.all (fun c => !reference.isNaN (metric reference c (List.replicate 20 0))) = true ∧
    ∃ c ∈ nanIssued.dec.table, reference.isNaN (metric reference c (nanWord :: List.replicate 19 0)) = true :=
  ⟨rfl, rfl, rfl, decLegal_decoder (by decide), by decide +kernel, nanIssued_metric⟩

theorem witness_NanMetricStopsTheBlock : nanIssued.fault = none ∧ nanIssued.dec.valid = true ∧
    (nanWord :: List.replicate 19 0).length = 20 ∧
    nanIssued.pending = ⟨0x00140008, (nanWord :: List.replicate 19 0).map .num⟩ :: [] ∧
    ∃ c ∈ nanIssued.dec.table, reference.isNaN (metric reference c (nanWord :: List.replicate 19 0)) = true :=
  ⟨rfl, rfl, rfl, rfl, nanIssued_metric⟩

/-- V-DE-3, L zeros; and the codeword of index 2 (V-DE-1), sent as +1 and −1: its first element is the most significant bit. -/
theorem witness_DecodedVectorHasLBinaryElements : (∃ t,
    exec (.decode 20) (issued [(Line.decode (List.replicate 20 0)).assemble] (decoder 2 fresh)) = .next t ∧
    t.responses = [] ++ [⟨0x00, [.bit 0, .bit 0]⟩]) ∧ 0 < (decoder 2 fresh).dec.l.toNat ∧ 1 < (decoder 2 fresh).dec.l.toNat ∧
    ∃ t, exec (.decode 20) (issued [(Line.decode (List.replicate 14 0x3FF0000000000000 ++
        [0xBFF0000000000000, 0xBFF0000000000000, 0x3FF0000000000000, 0x3FF0000000000000, 0xBFF0000000000000,
          0xBFF0000000000000])).assemble] (decoder 2 fresh)) = .next t ∧
      t.responses = [] ++ [⟨0x00, [.bit 1, .bit 0]⟩] :=
  ⟨next_of_reads (f := State.responses) (by decide +kernel), by decide, by decide,
    next_of_reads (f := State.responses) (by decide +kernel)⟩

theorem witness_DecoderAndEncoderAreIndependent : (∃ t, exec (.decCfg 2) fresh = .next t) ∧
    (∃ t, exec (.decode 0) fresh = .next t) ∧ ∃ t, exec (.encCfg 2) (decoder 4 fresh) = .next t :=
  ⟨⟨_, rfl⟩, ⟨_, rfl⟩, ⟨_, rfl⟩⟩

theorem witness_TablesAndDecodingsAreDetermined :
    ∃ s u : State, s ≠ u ∧ s.fault = none ∧ u.fault = none ∧ s.gen = u.gen ∧ 6 ∈ supportedLengths ∧
    s.pending = (Line.decCfg (BitVec.ofNat 8 6)).assemble :: (Line.decode [0]).assemble :: [] ∧
    u.pending = (Line.decCfg (BitVec.ofNat 8 6)).assemble :: (Line.decode [0]).assemble :: [] := by
  refine ⟨issued [(Line.decCfg 6).assemble, (Line.decode [0]).assemble] fresh,
    issued [(Line.decCfg 6).assemble, (Line.decode [0]).assemble] (encoder 2 fresh), ?_, rfl, rfl, rfl, by decide, rfl, rfl⟩
  intro h
  have := congrArg (fun s : State => s.enc.valid) h
  exact absurd this (by decide)

theorem witness_NoiselessRoundTripGivesTheVectorBack : fresh.fault = none ∧ fresh.pending = [] ∧ GenRank fresh.gen ∧
    2 ∈ supportedLengths ∧ ([1, 0] : List Byte).length = 2 ∧ ∀ b ∈ ([1, 0] : List Byte), b = 0 ∨ b = 1 :=
  ⟨rfl, rfl, genRank_genCand, by decide, rfl, by simp⟩

theorem witness_ResetUnconfiguresEveryUnit : (encoder 2 fresh).payload = [] ∧
    IsRequestPayload (.encode 2) (issued [(Line.encode [1, 0]).assemble] fresh).payload := ⟨rfl, [1, 0], rfl, rfl⟩

theorem witness_ResetEqualsPowerOnButForFault : fresh.enc = State.reset.enc ∧ fresh.dec = State.reset.dec ∧
    fresh.chan = State.reset.chan ∧ fresh.payload = [] ∧
    (issued [⟨0x0000000F, []⟩] { fresh with fault := some .nanMetric }).fault = some .nanMetric := ⟨rfl, rfl, rfl, rfl, rfl⟩

theorem witness_EveryStepKeepsTheCodewordTable : DecLegal (decoder 2 fresh) ∧
    (∃ t, step (issued [(Line.decCfg 4).assemble] (decoder 2 fresh)) = .next t) ∧ ∃ t, exec (.decode 0) fresh = .next t :=
  ⟨decLegal_decoder (by decide), ⟨_, rfl⟩, ⟨_, rfl⟩⟩

theorem witness_EveryStepKeepsTheRegistersLegal : EncLegal (encoder 2 fresh) ∧ TableEmptyUnlessConfigured (encoder 2 fresh) ∧
    ResponsesLegal (encoder 2 fresh) ∧ ∃ t, step (issued [(Line.encCfg 7).assemble] (encoder 2 fresh)) = .next t :=
  ⟨fun _ => by decide, fun _ => rfl, fun r hr => absurd hr (by simp [encoder, fresh, State.reset]), _, rfl⟩

theorem witness_NoStepWritesGen : ∃ t, step (issued [Line.reset.assemble] fresh) = .next t := ⟨_, rfl⟩

/-- Steps that do change ENC, DEC, CHAN and FAULT. -/
theorem witness_RegistersAreWrittenByTheirCommandsOnly :
    (∃ t, step (issued [(Line.encCfg 2).assemble] fresh) = .next t ∧ t.enc ≠ fresh.enc) ∧
    (∃ t, step (issued [Line.reset.assemble] (decoder 2 fresh)) = .next t ∧ t.dec ≠ (decoder 2 fresh).dec) ∧
    (∃ t, step (issued [Line.reset.assemble] (channel 4 fresh)) = .next t ∧ t.chan ≠ (channel 4 fresh).chan) ∧
    (∃ t, step nanIssued = .next t ∧ t.fault ≠ nanIssued.fault) :=
  ⟨⟨_, rfl, by decide⟩, ⟨_, rfl, by decide +kernel⟩, ⟨_, rfl, by decide⟩, ⟨_, test_decode_nan, by decide +kernel⟩⟩

/-- The least positive number, 1.0, the greatest, −0 and a negative number: all numbers; sums that are exactly zero; and
words that are no NaN and not the other infinity. -/
theorem witness_AdditionIsCorrectlyRounded : ([0x0000000000000001, 0x3FF0000000000000, 0x7FEFFFFFFFFFFFFF, 0x8000000000000000,
    0xBFF0000000000000] : List Num64).all Binary64.isFinite = true ∧
    Binary64.value 0x0000000000000000 + Binary64.value 0x8000000000000000 = 0 ∧
    Binary64.value 0x3FF0000000000000 + Binary64.value 0xBFF0000000000000 = 0 ∧
    ([0xFFEFFFFFFFFFFFFF, plusInf] : List Num64).all (fun x => !reference.isNaN x && x != minusInf) = true ∧
    ([0x7FEFFFFFFFFFFFFF, minusInf] : List Num64).all (fun x => !reference.isNaN x && x != plusInf) = true ∧
    reference.isNaN nanWord = true := by decide +kernel

theorem witness_MultiplicationIsCorrectlyRounded : Binary64.isFinite 0x0000000000000001 = true ∧
    Binary64.isFinite 0xFFEFFFFFFFFFFFFF = true ∧
    reference.isNaN (reference.mul 0x8000000000000000 0x3FF0000000000000) = false ∧
    Binary64.isInf minusInf = true ∧ Binary64.isZero 0x8000000000000000 = true ∧
    reference.isNaN 0x0000000000000001 = false ∧ Binary64.isZero 0x0000000000000001 = false ∧
    reference.isNaN nanWord = true := by decide +kernel

theorem witness_DivisionIsCorrectlyRounded : Binary64.isFinite 0x7FEFFFFFFFFFFFFF = true ∧
    Binary64.isFinite 0x0000000000000001 = true ∧ Binary64.value 0x0000000000000001 ≠ 0 ∧
    reference.isNaN (reference.div 0x8000000000000000 0x3FF0000000000000) = false ∧
    reference.isNaN plusInf = false ∧ Binary64.isZero plusInf = false ∧ Binary64.isZero 0x8000000000000000 = true ∧
    Binary64.isInf minusInf = true ∧ reference.isNaN nanWord = true := by decide +kernel

theorem witness_SquareRootIsCorrectlyRounded : Binary64.isFinite 0x8000000000000000 = true ∧
    0 ≤ Binary64.value 0x8000000000000000 ∧ Binary64.value 0x8000000000000000 = 0 ∧
    Binary64.isFinite 0xBFF0000000000000 = true ∧ Binary64.value 0xBFF0000000000000 < 0 ∧
    reference.isNaN nanWord = true := by decide +kernel

/-- Numbers; each infinity is no NaN, as x of the clause on infinities at both ends of its range. -/
theorem witness_NegationAndComparison : Binary64.isFinite 0x7FEFFFFFFFFFFFFF = true ∧
    Binary64.isFinite 0x8000000000000000 = true ∧ reference.isNaN plusInf = false ∧ reference.isNaN minusInf = false ∧
    reference.isNaN nanWord = true := by decide +kernel

end Sys2Proof.Tests
end

section
/-! SUPPORT. What a command and a step leave in GEN, DEC and FAULT, read off `exec_cases` and `step_cases`. -/

namespace Sys2Proof.Machine

/-- R21: no command writes GEN. -/
theorem exec_gen {i : Instr} {s t : State} (h : exec i s = .next t) : t.gen = s.gen := by
  obtain ⟨-, ⟨_, -, rfl⟩ | ⟨_, rfl⟩ | ⟨_, -, -, rfl⟩ | ⟨-, _, _, _, rfl⟩ | ⟨_, _, -, rfl⟩ | ⟨_, -, -, rfl⟩ | ⟨_, -, rfl⟩ |
    ⟨-, rfl⟩⟩ := exec_cases h <;> simp

/-- R23: a command keeps DEC, or is a DEC_CFG of a supported length, which builds the table, or a RESET. -/
theorem exec_dec {i : Instr} {s t : State} (h : exec i s = .next t) :
    t.dec = s.dec ∨
    (∃ l ∈ supportedLengths, i = .decCfg l ∧ t.dec = ⟨true, BitVec.ofNat 8 l, codewordTable s.gen l⟩) ∨
    (i = .reset ∧ t.dec = .reset) := by
  obtain ⟨-, ⟨_, -, rfl⟩ | ⟨_, rfl⟩ | ⟨_, -, -, rfl⟩ | ⟨-, _, _, _, rfl⟩ | ⟨_, _, -, rfl⟩ | ⟨l, hl, hi, rfl⟩ | ⟨_, -, rfl⟩ |
    ⟨hi, rfl⟩⟩ := exec_cases h
  exacts [.inl rfl, .inl rfl, .inl rfl, .inl rfl, .inl rfl, .inr (.inl ⟨l, hl, hi, rfl⟩), .inl rfl, .inr (.inr ⟨hi, rfl⟩)]

/-- R27, R144: a command keeps FAULT, or is a DECODE that met a NaN metric, which sets it. -/
theorem exec_fault {i : Instr} {s t : State} (h : exec i s = .next t) :
    t.fault = s.fault ∨ ((∃ n, i = .decode n) ∧ t.fault = some .nanMetric) := by
  obtain ⟨-, ⟨_, -, rfl⟩ | ⟨_, rfl⟩ | ⟨_, -, -, rfl⟩ | ⟨-, _, _, _, rfl⟩ | ⟨_, _, -, rfl⟩ | ⟨_, -, -, rfl⟩ | ⟨n, hi, rfl⟩ |
    ⟨-, rfl⟩⟩ := exec_cases h
  exacts [.inl rfl, .inl rfl, .inl rfl, .inl rfl, .inl rfl, .inl rfl, .inr ⟨⟨n, hi⟩, rfl⟩, .inl rfl]

/-- A property of the state that waiting, the illegal-command response and every command keep, every step keeps. -/
theorem step_keeps {P : State → Prop} {s t : State} (h : step s = .next t) (hs : P s)
    (hraise : P (raise .illegalCommand s)) (hexec : ∀ i, exec i s = .next t → P t) : P t := by
  obtain ⟨-, ⟨-, rfl⟩ | ⟨tr, rest, -, ⟨e, -, -, rfl⟩ | ⟨i, -, hi⟩⟩⟩ := step_cases h
  · exact hs
  · exact hraise
  · exact hexec i hi

/-! ## FAULT is never cleared (R27) -/

/-- R27: a faulted block gives the same fault however long it is run. -/
theorem run_succ_of_fault {s : State} {f : Fault} (h : s.fault = some f) (k : Nat) :
    Sys2Proof.core.run (k + 1) s = .fault f := by
  have hstep : Sys2Proof.core.step s = .fault f := step_of_fault h
  simp only [Host.Core.run, hstep]

/-- R27: no command clears or changes a set FAULT; NaN metric is the one fault there is. -/
theorem exec_keeps_fault {i : Instr} {s t : State} {f : Fault} (hf : s.fault = some f) (h : exec i s = .next t) :
    t.fault = some f := by
  obtain hkept | ⟨-, hset⟩ := exec_fault h
  · exact hkept.trans hf
  · cases f
    exact hset

/-- Settles O15: from `exec_keeps_fault` and `run_succ_of_fault`. -/
theorem faultIsNeverClearedAndStopsTheBlock : Obligations.FaultIsNeverClearedAndStopsTheBlock :=
  fun _ _ hf => ⟨fun _ _ h => exec_keeps_fault hf h, run_succ_of_fault hf⟩

/-! ## DEC.TABLE is the table of EncodeCore (R24) -/

/-- The invariant speaks of GEN and DEC only. -/
theorem DecLegal.congr {s t : State} (hs : DecLegal s) (hg : t.gen = s.gen) (hd : t.dec = s.dec) : DecLegal t := by
  unfold DecLegal
  rw [hg, hd]
  exact hs

/-- An unconfigured decoder meets the invariant. -/
theorem decLegal_of_not_valid {s : State} (h : s.dec.valid = false) : DecLegal s := fun hv => by simp [h] at hv

/-- R110: a decoder that holds the table built for a supported length meets the invariant. -/
theorem decLegal_of_codewordTable {s : State} {l : Nat} (hl : l ∈ supportedLengths)
    (hd : s.dec = ⟨true, BitVec.ofNat 8 l, codewordTable s.gen l⟩) : DecLegal s := by
  intro _
  have hlen : s.dec.l.toNat = l := by rw [hd]; exact toNat_ofNat_of_supported hl
  have htable : s.dec.table = codewordTable s.gen l := by rw [hd]
  rw [hlen, htable]
  exact ⟨hl, codewordTable_length _ _, codewordTable_getElem? _ _⟩

theorem exec_keeps_decLegal {i : Instr} {s t : State} (hs : DecLegal s) (h : exec i s = .next t) : DecLegal t := by
  have hgen := exec_gen h
  obtain hdec | ⟨l, hl, -, hdec⟩ | ⟨-, hdec⟩ := exec_dec h
  · exact hs.congr hgen hdec
  · exact decLegal_of_codewordTable hl (hgen ▸ hdec)
  · exact decLegal_of_not_valid (by rw [hdec]; rfl)

theorem step_keeps_decLegal {s t : State} (hs : DecLegal s) (h : step s = .next t) : DecLegal t :=
  step_keeps h hs (hs.congr (raise_gen _ _) (raise_dec _ _)) fun _ => exec_keeps_decLegal hs

/-- R111: DECODE writes nothing of DEC. -/
theorem exec_decode_dec {n : Nat} {s t : State} (h : exec (.decode n) s = .next t) : t.dec = s.dec := by
  obtain hdec | ⟨_, -, hi, -⟩ | ⟨hi, -⟩ := exec_dec h
  · exact hdec
  · cases hi
  · cases hi

/-- Settles O42: the step lemma `step_keeps_decLegal`, and `exec_decode_dec` for DECODE. -/
theorem everyStepKeepsTheCodewordTable : Obligations.EveryStepKeepsTheCodewordTable :=
  ⟨fun _ _ => step_keeps_decLegal, fun _ _ _ h => congrArg Dec.table (exec_decode_dec h)⟩

end Sys2Proof.Machine
end

section
/-! SUPPORT. The index expansion of R42, element by element. -/

namespace Sys2Proof.Machine

/-! ## BE and IDX are the big-endian expansion (R42) -/

/-- R42: `BE(i, L)[col] = (i >> (L − 1 − col)) & 1`. -/
theorem be_getElem?_shiftRight {i l col : Nat} (h : col < l) :
    (be i l)[col]? = some (decide ((i >>> (l - 1 - col)) % 2 = 1)) := by
  have hcol : col < (be i l).length := by simpa using h
  rw [List.getElem?_eq_getElem hcol, be_getElem, Nat.testBit_eq_decide_div_mod_eq, Nat.shiftRight_eq_div_pow]

/-- An index below 2^L is the index of its expansion. -/
theorem idx_be {i l : Nat} (h : i < 2 ^ l) : idx (be i l) = i := by
  rw [idx_be_mod, Nat.mod_eq_of_lt h]

/-- R42: `IDX(d) = Σ_{col=0}^{L−1} d[col] · 2^(L − 1 − col)`. The first bit is the term of col = 0; the index of the rest is
the sum of the other terms, col moved by one. -/
theorem idx_eq_sum (d : List Bool) :
    idx d = ((List.range d.length).map fun col => (d.getD col false).toNat * 2 ^ (d.length - 1 - col)).sum := by
  induction d with
  | nil => rfl
  | cons b d ih =>
    rw [idx, ih, List.length_cons, List.range_succ_eq_map, List.map_cons, List.sum_cons, List.map_map]
    simp [Function.comp_def, Nat.sub_sub, Nat.add_comm]

/-- Settles O28: from `be_getElem?_shiftRight`, `idx_eq_sum` and the two inverses `idx_be` and `be_idx`. -/
theorem indexExpansionIsBigEndian : Obligations.IndexExpansionIsBigEndian := by
  intro l _
  refine ⟨fun i hi => ⟨be_length i l, fun _ => be_getElem?_shiftRight, idx_be hi⟩, ?_⟩
  rintro d rfl
  exact ⟨idx_eq_sum d, be_idx d⟩

end Sys2Proof.Machine
end

section
/-! SUPPORT. Decoding as the case table of R57 on the fields as naturals, and the illegal words of R58 read off that table. -/

namespace Sys2Proof

open Sys2Proof.Statements

/-! ## decodeCmd is the case table (R57) -/

theorem toOption_fieldCheck (c : Bool) (i : Instr) :
    (fieldCheck c i).toOption = if c = true then some i else none := by
  cases c <;> rfl

/-- A field is the zero word exactly when its natural is 0. -/
theorem beq_zero_iff_toNat {k : Nat} (x : BitVec k) : (x == 0) = true ↔ x.toNat = 0 := by
  rw [beq_iff_eq, ← BitVec.toNat_inj]
  simp

theorem caseTable_of_rsv_ne {rsv : Nat} (h : rsv ≠ 0) (op l n : Nat) : caseTable op rsv l n = none := if_pos h

/-- With RSV = 0 the decoder's `case op of` is the table's, branch by branch. -/
theorem toOption_decodeOp (op : BitVec 4) (l : BitVec 8) (n : BitVec 16) :
    (decodeOp op l n).toOption = caseTable op.toNat 0 l.toNat n.toNat := by
  unfold decodeOp
  split
  case h_10 h1 h2 h3 h4 h5 h6 h7 h8 hF =>
    rw [caseTable, if_neg (not_not.mpr rfl), if_neg h1, if_neg h2, if_neg h3, if_neg h4, if_neg h5, if_neg h6, if_neg h7,
      if_neg h8, if_neg hF]
    rfl
  all_goals
    next hop =>
      simp only [toOption_fieldCheck, Bool.and_eq_true, beq_zero_iff_toNat, caseTable, hop]
      rfl

theorem toOption_decodeCmd (w : Word) :
    (decodeCmd w).toOption = caseTable (opField w).toNat (rsvField w).toNat (lField w).toNat (nField w).toNat := by
  unfold decodeCmd
  split
  · next hr => exact (caseTable_of_rsv_ne (mt (beq_zero_iff_toNat _).mpr (by simpa using hr)) _ _ _).symm
  · next hr => rw [toOption_decodeOp, not_not.mp hr]; rfl

/-- Settles O2: `toOption_decodeCmd`, with the fields written as naturals. -/
theorem decodeFollowsTheCaseTable : Obligations.DecodeFollowsTheCaseTable := by
  intro w
  rw [toOption_decodeCmd, opField_toNat, rsvField_toNat, lField_toNat, nField_toNat]

/-! ## The illegal words (R58, R131) -/

theorem exists_error_iff_toOption (r : Except Illegal Instr) : (∃ e, r = .error e) ↔ r.toOption = none := by
  cases r <;> simp [Except.toOption]

/-- The table gives ILLEGAL on the three kinds R58 lists and on nothing else. -/
theorem caseTable_eq_none_iff {op : Nat} (hop : op < 16) (rsv l n : Nat) :
    caseTable op rsv l n = none ↔ op = 0x0 ∨ (0x9 ≤ op ∧ op ≤ 0xE) ∨ rsv ≠ 0 ∨
      (l ≠ 0 ∧ op ≠ 0x1 ∧ op ≠ 0x7) ∨ (n ≠ 0 ∧ (op = 0x1 ∨ op = 0x4 ∨ op = 0x7 ∨ op = 0xF)) := by
  by_cases hr : rsv = 0
  · interval_cases op <;> simp [caseTable, hr] <;> tauto
  · simp [caseTable_of_rsv_ne hr, hr]

theorem decodeCmd_error_iff (w : Word) : (∃ e, decodeCmd w = .error e) ↔ IsIllegalWord w := by
  rw [exists_error_iff_toOption, decodeFollowsTheCaseTable w]
  exact caseTable_eq_none_iff (Nat.mod_lt _ (by decide)) _ _ _

/-- Settles O7: `decodeCmd_error_iff`; the step on an illegal word is the illegal command of R131, which raises. -/
theorem illegalWordsAnswerIllegalCommand : Obligations.IllegalWordsAnswerIllegalCommand := by
  intro w
  refine ⟨decodeCmd_error_iff w, fun s rest hw hf hp => ?_⟩
  obtain ⟨e, he⟩ := (decodeCmd_error_iff w).mpr hw
  have hstep : Machine.step s = .next (Machine.raise .illegalCommand s) := by
    rw [Machine.step_of_illegal hf hp he, Machine.performIllegal_of_empty (Machine.payload_of_pending hp)]
  exact ⟨_, hstep, ⟨rfl, rfl, rfl, rfl, rfl⟩, rfl, rfl⟩

end Sys2Proof
end

section
/-! SUPPORT. A command word written as a natural from its opcode, L and N fields, read back by the decoder (R51, R57). -/

namespace Sys2Proof

open Sys2Proof.Statements

theorem except_toOption_eq_some_iff {r : Except Illegal Instr} {i : Instr} : r.toOption = some i ↔ r = .ok i := by
  cases r <;> simp [Except.toOption]

/-- The decoder reads a word with RSV = 0 as the row of R57's table for the three fields it is put together from. -/
theorem decodeCmd_eq_ok_of_caseTable {w : Word} {op l n : Nat} {i : Instr} (hw : w.toNat = op + l * 2 ^ 8 + n * 2 ^ 16)
    (hop : op < 16) (hl : l < 256) (hi : caseTable op 0 l n = some i) : decodeCmd w = .ok i := by
  have hfields : w.toNat % 16 = op ∧ w.toNat / 16 % 16 = 0 ∧ w.toNat / 256 % 256 = l ∧ w.toNat / 65536 = n := by omega
  obtain ⟨h1, h2, h3, h4⟩ := hfields
  rw [← except_toOption_eq_some_iff, decodeFollowsTheCaseTable w, h1, h2, h3, h4, hi]

/-- R71: the word of `ENC_CFG L`. -/
theorem decodeCmd_encCfg_word {l : Nat} (hl : l < 256) :
    decodeCmd (BitVec.ofNat 32 (0x00000001 + l * 2 ^ 8)) = .ok (.encCfg l) :=
  decodeCmd_eq_ok_of_caseTable (op := 0x1) (n := 0) (by rw [BitVec.toNat_ofNat]; omega) (by decide) hl rfl

/-- R72: the word of `ENCODE` of n elements. -/
theorem decodeCmd_encode_word {n : Nat} (hn : n < 65536) :
    decodeCmd (BitVec.ofNat 32 (0x00000002 + n * 2 ^ 16)) = .ok (.encode n) :=
  decodeCmd_eq_ok_of_caseTable (op := 0x2) (l := 0) (by rw [BitVec.toNat_ofNat]; omega) (by decide) (by decide) rfl

end Sys2Proof
end

section
/-! SUPPORT. The encoder: what ENC_CFG and ENCODE answer, and the codewords of the zero and the unit vectors. -/

namespace Sys2Proof.Machine

/-! ## Ending a command -/

/-- R14, R143: `raise` answers its status with no items. -/
theorem answered_raise (st : Status) (s : State) : Answered s (raise st s) st.code [] := ⟨rfl, rfl⟩

theorem sameRegisters_raise (st : Status) (s : State) : SameRegisters s (raise st s) := ⟨rfl, rfl, rfl, rfl, rfl⟩

theorem answered_respond (items : List Item) (s : State) : Answered s (respond items s) Status.ok.code items := ⟨rfl, rfl⟩

theorem sameRegisters_respond (items : List Item) (s : State) : SameRegisters s (respond items s) :=
  ⟨rfl, rfl, rfl, rfl, rfl⟩

/-! ## ENC_CFG (R71) -/

theorem exec_encCfg_of_supported {l : Nat} {s : State} (hp : s.payload = []) (hl : l ∈ supportedLengths) :
    exec (.encCfg l) s = .next (respond [] { s with enc := ⟨true, BitVec.ofNat 8 l⟩ }) := by
  rw [exec_encCfg l hp, if_neg (not_not.mpr hl)]

theorem exec_encCfg_of_not_supported {l : Nat} {s : State} (hp : s.payload = []) (hl : l ∉ supportedLengths) :
    exec (.encCfg l) s = .next (raise .invalidConfiguration s) := by
  rw [exec_encCfg l hp, if_pos hl]

/-- Settles O16: `decodeCmd_encCfg_word` for the word, and ENC_CFG on each side of SUPPORTED_L. -/
theorem encCfgSetsOrKeepsTheEncoder : Obligations.EncCfgSetsOrKeepsTheEncoder := by
  intro l s
  refine ⟨decodeCmd_encCfg_word, fun hp hl => ?_, fun hp hl => ?_⟩
  · exact ⟨_, exec_encCfg_of_supported hp hl, ⟨rfl, rfl⟩, rfl, toNat_ofNat_of_supported hl, rfl, rfl, rfl, rfl⟩
  · exact ⟨_, exec_encCfg_of_not_supported hp hl, answered_raise _ s, sameRegisters_raise _ s⟩

/-! ## ENCODE (R72) -/

theorem isBinary_iff (b : Byte) : isBinary b = true ↔ b = 0 ∨ b = 1 := by
  simp [isBinary]

theorem all_isBinary_iff (d : List Byte) : d.all isBinary = true ↔ ∀ b ∈ d, b = 0 ∨ b = 1 := by
  simp [isBinary_iff]

theorem all_isBinary_eq_false_iff (d : List Byte) : d.all isBinary = false ↔ ∃ b ∈ d, b ≠ 0 ∧ b ≠ 1 := by
  rw [← Bool.not_eq_true, all_isBinary_iff]
  simp only [not_forall, not_or, exists_prop, ne_eq]

theorem exec_encode_of_not_valid {d : List Byte} {s : State} (hp : s.payload = d.map .bit) (hv : s.enc.valid = false) :
    exec (.encode d.length) s = .next (raise .notConfigured s) := by
  rw [exec_encode hp, if_pos hv]

theorem exec_encode_of_invalid {d : List Byte} {s : State} (hp : s.payload = d.map .bit) (hv : s.enc.valid = true)
    (hd : d.length ≠ s.enc.l.toNat ∨ ∃ b ∈ d, b ≠ 0 ∧ b ≠ 1) :
    exec (.encode d.length) s = .next (raise .invalidInput s) := by
  rw [exec_encode hp, if_neg (by simp [hv])]
  by_cases hlen : d.length = s.enc.l.toNat
  · have hbits := (all_isBinary_eq_false_iff d).mpr (hd.resolve_left (not_not.mpr hlen))
    rw [if_neg (not_not.mpr hlen), if_pos hbits]
  · rw [if_pos hlen]

theorem exec_encode_of_valid {d : List Byte} {s : State} (hp : s.payload = d.map .bit) (hv : s.enc.valid = true)
    (hlen : d.length = s.enc.l.toNat) (hbits : ∀ b ∈ d, b = 0 ∨ b = 1) :
    exec (.encode d.length) s =
      .next (respond ((encodeCore s.gen d.length (d.map (· == 1))).toList.map bitItem) s) := by
  have hall := (all_isBinary_iff d).mpr hbits
  rw [exec_encode hp, if_neg (by simp [hv]), if_neg (not_not.mpr hlen), if_neg (by simp [hall]), ← hlen]

/-- R70, R72: codeword bit r of the information elements d is the parity of the selected columns of row r. -/
theorem encodeCore_map_getElem? (g : Gen) (n : Nat) (d : List Byte) (r : Fin 20) :
    (encodeCore g n (d.map (· == 1))).toList[r.val]? = some (decide
      ((List.range n).countP (fun col => genBit g r (13 - n + col) && d.getD col 0 == 1) % 2 = 1)) := by
  have hselect (col : Nat) : (d.map (· == 1)).getD col false = (d.getD col 0 == 1) :=
    List.getD_map (l := d) (d := (0 : Byte)) (f := (· == 1))
  rw [Vector.getElem?_toList, Vector.getElem?_eq_getElem r.isLt, encodeCore_getElem, xorSum_eq_parity]
  simp only [hselect, Fin.eta]

/-- Settles O17: `decodeCmd_encode_word` for the word, ENCODE's three outcomes, and `encodeCore_map_getElem?` for the
codeword it answers. -/
theorem encodeAnswersTheCodeword : Obligations.EncodeAnswersTheCodeword := by
  intro n d s
  refine ⟨decodeCmd_encode_word, ?_⟩
  rintro rfl hp
  refine ⟨fun hv => ?_, fun hv hd => ?_, fun hv hlen hbits => ?_⟩
  · exact ⟨_, exec_encode_of_not_valid hp hv, answered_raise _ s, sameRegisters_raise _ s⟩
  · exact ⟨_, exec_encode_of_invalid hp hv hd, answered_raise _ s, sameRegisters_raise _ s⟩
  · exact ⟨_, _, exec_encode_of_valid hp hv hlen hbits, answered_respond _ s, sameRegisters_respond _ s,
      Vector.length_toList, encodeCore_map_getElem? s.gen d.length d⟩

/-! ## The zero vector and the unit vectors (R73) -/

theorem encodeCore_zero (g : Gen) (l : Nat) (r : Fin 20) : (encodeCore g l (List.replicate l false))[r] = false := by
  have hzero (col : Nat) : (List.replicate l false).getD col false = false := by simp
  rw [Fin.getElem_fin, encodeCore_getElem]
  simp only [hzero, Bool.and_false, xorSum_false]

theorem getD_unitVector {l c : Nat} (hc : c < l) (col : Nat) :
    ((List.range l).map (· == col)).getD c false = (c == col) := by
  simp [List.getD_eq_getElem?_getD, hc]

/-- Only the term of `col` can be 1 in the exclusive OR of R70. -/
theorem encodeCore_unitVector (g : Gen) {l col : Nat} (hcol : col < l) (r : Fin 20) :
    (encodeCore g l ((List.range l).map (· == col)))[r] = genBit g r (13 - l + col) := by
  rw [Fin.getElem_fin, encodeCore_getElem, xorSum_single hcol]
  · simp only [getD_unitVector hcol, beq_self_eq_true, Bool.and_true, Fin.eta]
  · intro c hc hne
    simp only [getD_unitVector hc, beq_eq_false_iff_ne.mpr hne, Bool.and_false]

/-- Settles O18: `encodeCore_zero` and `encodeCore_unitVector`, which hold of any length. -/
theorem zeroAndUnitVectorsEncodeToZeroAndColumns : Obligations.ZeroAndUnitVectorsEncodeToZeroAndColumns :=
  fun g l _ => ⟨encodeCore_zero g l, fun _ hcol r => encodeCore_unitVector g hcol r⟩

end Sys2Proof.Machine
end

section
/-! SUPPORT. The modulator: the word of MODULATE and the items it answers, bit by bit (R80). -/

namespace Sys2Proof.Machine

open Sys2Proof.Statements

/-- R80: the word of `MODULATE` of n elements. -/
theorem decodeCmd_modulate_word {n : Nat} (hn : n < 65536) :
    decodeCmd (BitVec.ofNat 32 (0x00000003 + n * 2 ^ 16)) = .ok (.modulate n) :=
  decodeCmd_eq_ok_of_caseTable (op := 0x3) (l := 0) (by rw [BitVec.toNat_ofNat]; omega) (by decide) (by decide) rfl

/-- R80: the symbols of an even number of elements, read off "re then im", are the axes of the elements in order. -/
theorem flatMap_mapSymbols {α : Type} (N : Numerics α) (amplitude : α) : ∀ {b : List Byte}, b.length % 2 = 0 →
    ((mapSymbols N amplitude b).flatMap fun y => [y.re, y.im]) = b.map (axis N amplitude)
  | [], _ => rfl
  | [_], h => by simp at h
  | msb :: lsb :: rest, h => by
    have hrest : rest.length % 2 = 0 := (Nat.add_mod_right rest.length 2).symm.trans h
    simp [mapSymbols, flatMap_mapSymbols N amplitude hrest]

theorem axis_reference : axis reference amp = axisOf := rfl

/-- R54, R80: the answer's NUM items, one for each element. -/
theorem cplxItems_mapSymbols {b : List Byte} (h : b.length % 2 = 0) :
    cplxItems (mapSymbols reference amp b) = b.map fun x => .num (axisOf x) := by
  rw [cplxItems_eq, flatMap_mapSymbols reference amp h, axis_reference, List.map_map]
  rfl

theorem exec_modulate_of_odd {b : List Byte} {s : State} (hp : s.payload = b.map .bit) (h : b.length % 2 = 1) :
    exec (.modulate b.length) s = .next (raise .invalidInput s) := by
  rw [exec_modulate hp, if_pos (by omega)]

theorem exec_modulate_of_even {b : List Byte} {s : State} (hp : s.payload = b.map .bit) (h : b.length % 2 = 0) :
    exec (.modulate b.length) s = .next (respond (b.map fun x => .num (axisOf x)) s) := by
  rw [exec_modulate hp, if_neg (not_not.mpr h), cplxItems_mapSymbols h]

/-- Settles O20: `decodeCmd_modulate_word` for the word, and MODULATE on an odd and on an even count. -/
theorem modulateAnswersTheSymbols : Obligations.ModulateAnswersTheSymbols := by
  intro n b s
  refine ⟨decodeCmd_modulate_word, ?_⟩
  rintro rfl hp
  refine ⟨fun hodd => ?_, fun heven => ?_⟩
  · exact ⟨_, exec_modulate_of_odd hp hodd, answered_raise _ s, sameRegisters_raise _ s⟩
  · exact ⟨_, exec_modulate_of_even hp heven, answered_respond _ s, sameRegisters_respond _ s⟩

end Sys2Proof.Machine
end

section
/-! SUPPORT. A well-formed instruction and the line that writes it, read back by the decoder (R57, R61). -/

namespace Sys2Proof

open Sys2Proof.Machine

theorem lengthField_lt_of_wf {i : Instr} (h : i.wf = true) : i.lengthField < 256 := by
  cases i
  case encCfg l => exact of_decide_eq_true h
  case decCfg l => exact of_decide_eq_true h
  all_goals exact Nat.zero_lt_succ 255

/-- The command word of a well-formed instruction decodes to it: R57's table has it at its opcode and fields. -/
theorem decodeCmd_encode {i : Instr} (h : i.wf = true) : decodeCmd (encode i) = .ok i := by
  refine decodeCmd_eq_ok_of_caseTable (op := i.opcode.toNat) (l := i.lengthField) (n := i.countField) ?_ i.opcode.isLt
    (lengthField_lt_of_wf h) (by cases i <;> rfl)
  rw [toNat_encode h]
  omega

theorem decodeCmd_assemble {line : Line} {i : Instr} (hi : line.instr = some i) (hw : i.wf = true) :
    decodeCmd line.assemble.word = .ok i := by
  rw [word_assemble hi hw, decodeCmd_encode hw]

/-- The block takes the transaction of the line the host has written next, and performs its instruction. -/
theorem step_of_line {s : State} {line : Line} {rest : List Transaction} {i : Instr} (hf : s.fault = none)
    (hp : s.pending = line.assemble :: rest) (hi : line.instr = some i) (hw : i.wf = true) : step s = exec i s :=
  step_of_decode hf hp (decodeCmd_assemble hi hw)

end Sys2Proof
end

section
/-! SUPPORT. The channel: what CHAN_CFG and TRANSMIT answer, and the responses to TRANSMITs as a function of CHAN alone
(R90 to R93). -/

namespace Sys2Proof.Machine

open Sys2Proof.Statements

/-! ## TRANSMIT (R91, R92) -/

/-- R91: the word of `TRANSMIT` of n symbols. -/
theorem decodeCmd_transmit_word {n : Nat} (hn : n < 65536) :
    decodeCmd (BitVec.ofNat 32 (0x00000005 + n * 2 ^ 16)) = .ok (.transmit n) :=
  decodeCmd_eq_ok_of_caseTable (op := 0x5) (l := 0) (by rw [BitVec.toNat_ofNat]; omega) (by decide) (by decide) rfl

/-- R92: read off "re then im", the noisy symbols are the items of the symbols, item j with sample `k + j` added. -/
theorem flatMap_addNoise {α : Type} (N : Numerics α) (sample : Nat → α) (k : Nat) (ys : List (Cplx α)) :
    ((addNoise N sample k ys).flatMap fun y => [y.re, y.im]) =
      (ys.flatMap fun y => [y.re, y.im]).mapIdx fun j v => N.add v (sample (k + j)) := by
  induction ys generalizing k with
  | nil => rfl
  | cons y ys ih =>
    have hshift (j : Nat) : k + 2 + j = k + (j + 1 + 1) := by omega
    simp [addNoise, ih, List.mapIdx_cons, hshift]

/-- R91: the symbols `ys` as the channel `c` sends them on. -/
def Chan.noisy (c : Chan) (ys : List (Cplx Num64)) : List (Cplx Num64) :=
  addNoise reference (Config.noise c.seed c.sigma) c.k ys

/-- R91: the channel once it has drawn the samples of `n` symbols. -/
def Chan.advance (c : Chan) (n : Nat) : Chan := { c with k := c.k + 2 * n }

theorem cplxItems_noisy (c : Chan) (ys : List (Cplx Num64)) :
    cplxItems (c.noisy ys) = ((ys.flatMap fun y => [y.re, y.im]).mapIdx fun j v =>
      reference.add v (Config.noise c.seed c.sigma (c.k + j))).map .num := by
  rw [cplxItems_eq, Chan.noisy, flatMap_addNoise]

theorem exec_transmit_of_not_valid {ys : List (Cplx Num64)} {s : State} (hp : s.payload = cplxItems ys)
    (hv : s.chan.valid = false) : exec (.transmit ys.length) s = .next (raise .notConfigured s) := by
  rw [exec_transmit hp, if_pos hv]

theorem exec_transmit_of_valid {ys : List (Cplx Num64)} {s : State} (hp : s.payload = cplxItems ys)
    (hv : s.chan.valid = true) : exec (.transmit ys.length) s =
      .next (respond (cplxItems (s.chan.noisy ys)) { s with chan := s.chan.advance ys.length }) := by
  rw [exec_transmit hp, if_neg (by simp [hv])]
  rfl

/-- Settles O23: `decodeCmd_transmit_word` for the word, TRANSMIT on each value of CHAN.VALID, and `cplxItems_noisy` for the
items. -/
theorem transmitAddsTheNoiseSamplesInOrder : Obligations.TransmitAddsTheNoiseSamplesInOrder := by
  intro n x s
  refine ⟨decodeCmd_transmit_word, fun hx hp => ?_⟩
  obtain ⟨ys, rfl, rfl⟩ := exists_pairUp hx
  rw [← cplxItems_eq] at hp
  refine ⟨fun hv => ?_, fun hv => ?_⟩
  · exact ⟨_, exec_transmit_of_not_valid hp hv, answered_raise _ s, sameRegisters_raise _ s⟩
  · have hexec := exec_transmit_of_valid hp hv
    rw [cplxItems_noisy] at hexec
    refine ⟨_, _, hexec, answered_respond _ _, ?_, fun j v hj => ?_, rfl, rfl, rfl, rfl, rfl⟩
    · rw [List.length_mapIdx, hx]
    · rw [List.getElem?_mapIdx, hj, Option.map_some]

/-! ## The responses to TRANSMITs (R93) -/

theorem run_succ_of_next {s t : State} (h : step s = .next t) (k : Nat) :
    Sys2Proof.core.run (k + 1) s = Sys2Proof.core.run k t := by
  have hstep : Sys2Proof.core.step s = .next t := h
  simp only [Host.Core.run, hstep]

/-- The responses to one TRANSMIT after another, from the channel `c` on. -/
def transmitResponses (c : Chan) : List (List (Cplx Num64)) → List Response
  | [] => []
  | x :: xs => ⟨0x00, cplxItems (c.noisy x)⟩ :: transmitResponses (c.advance x.length) xs

theorem length_transmitResponses (c : Chan) (xs : List (List (Cplx Num64))) :
    (transmitResponses c xs).length = xs.length := by
  induction xs generalizing c with
  | nil => rfl
  | cons x xs ih => rw [transmitResponses, List.length_cons, ih, List.length_cons]

theorem status_of_mem_transmitResponses {c : Chan} {xs : List (List (Cplx Num64))} {r : Response}
    (h : r ∈ transmitResponses c xs) : r.status = 0x00 := by
  induction xs generalizing c with
  | nil => simp [transmitResponses] at h
  | cons x xs ih =>
    obtain rfl | h := List.mem_cons.mp h
    · rfl
    · exact ih h

theorem step_transmit {s : State} {x : List (Cplx Num64)} {rest : List Transaction} (hf : s.fault = none)
    (hv : s.chan.valid = true) (hx : x.length < 65536) (hp : s.pending = (Line.transmit x).assemble :: rest) :
    step s = .next (respond (cplxItems (s.chan.noisy x)) { s with chan := s.chan.advance x.length }) := by
  rw [step_of_line hf hp rfl (decide_eq_true hx)]
  exact exec_transmit_of_valid (payload_of_pending hp) hv

/-- R93: a configured, unfaulted block performs all TRANSMITs at its port, and answers what its CHAN determines. -/
theorem run_transmits {xs : List (List (Cplx Num64))} {s : State} (hf : s.fault = none) (hv : s.chan.valid = true)
    (hxs : ∀ x ∈ xs, x.length < 65536) (hp : s.pending = xs.map fun x => (Line.transmit x).assemble) :
    ∃ t : State, Sys2Proof.core.run xs.length s = .next t ∧ t.responses = s.responses ++ transmitResponses s.chan xs := by
  induction xs generalizing s with
  | nil => exact ⟨s, rfl, (List.append_nil _).symm⟩
  | cons x xs ih =>
    obtain ⟨hx, hxs⟩ := List.forall_mem_cons.mp hxs
    have hstep := step_transmit hf hv hx hp
    have hrest := congrArg List.tail hp
    obtain ⟨t, hrun, hresp⟩ := ih
      (s := respond (cplxItems (s.chan.noisy x)) { s with chan := s.chan.advance x.length }) hf hv hxs hrest
    refine ⟨t, (run_succ_of_next hstep xs.length).trans hrun, ?_⟩
    rw [hresp, respond_responses, List.append_assoc]
    rfl

/-! ## CHAN_CFG (R90) -/

/-- R90: the channel that CHAN_CFG starts. -/
def Chan.started (snrDb : Num64) (seed : Seed) : Chan := ⟨true, snrDb, sigmaOf snrDb, seed, 0⟩

theorem exec_chanCfg_started {s : State} {snrDb : Num64} {seed : Seed} (hp : s.payload = [.num snrDb, .seed seed]) :
    exec .chanCfg s = .next (respond [] { s with chan := .started snrDb seed }) :=
  exec_chanCfg hp

theorem sigmaOf_of_lin_inf {x : Num64} (h : reference.pow10 (reference.div x reference.ten) = 0x7FF0000000000000) :
    sigmaOf x = 0x0000000000000000 := by
  rw [sigmaOf, h]
  decide +kernel

theorem sigmaOf_of_lin_zero {x : Num64} (h : reference.pow10 (reference.div x reference.ten) = 0x0000000000000000) :
    sigmaOf x = 0x7FF0000000000000 := by
  rw [sigmaOf, h]
  decide +kernel

/-- R90: every operation from snr_db to σ keeps a NaN. -/
theorem isNaN_sigmaOf {x : Num64} (h : reference.isNaN x = true) : reference.isNaN (sigmaOf x) = true := by
  rw [reference_isNaN] at h
  simp only [sigmaOf, reference_isNaN, reference_sqrt, reference_div, reference_mul, reference_pow10]
  have hlin := Binary64.isNaN_pow10 (Binary64.isNaN_div (y := reference.ten) (.inl h))
  exact Binary64.isNaN_sqrt (Binary64.isNaN_div (.inr (Binary64.isNaN_mul (.inr hlin))))

/-- Settles O22: `exec_chanCfg_started` for the effect; the named values of σ are computed, and the clauses on lin and on a
NaN are `sigmaOf_of_lin_inf`, `sigmaOf_of_lin_zero` and `isNaN_sigmaOf`. -/
theorem chanCfgStartsTheChannel : Obligations.ChanCfgStartsTheChannel := by
  refine ⟨rfl, fun s snrDb seed hp => ?_, ?_, ?_, ?_, fun x => ⟨sigmaOf_of_lin_inf, sigmaOf_of_lin_zero, isNaN_sigmaOf⟩⟩
  · exact ⟨_, exec_chanCfg_started hp, answered_respond _ _, rfl, rfl, rfl, rfl, rfl, rfl, rfl, rfl, rfl⟩
  · decide +kernel
  · decide +kernel
  · decide +kernel

/-! ## The channel's answers are reproducible (R93) -/

/-- A block that performs CHAN_CFG and then TRANSMITs answers what the started channel determines, whatever it held. -/
theorem run_chanCfg_transmits {s : State} {snrDb : Num64} {seed : Seed} {xs : List (List (Cplx Num64))}
    (hf : s.fault = none) (hxs : ∀ x ∈ xs, x.length < 65536)
    (hp : s.pending = (Line.chanCfg snrDb seed).assemble :: xs.map fun x => (Line.transmit x).assemble) :
    ∃ t : State, Sys2Proof.core.run (xs.length + 1) s = .next t ∧
      t.responses = s.responses ++ (⟨0x00, []⟩ :: transmitResponses (.started snrDb seed) xs) := by
  have hstep := (step_of_line hf hp rfl rfl).trans (exec_chanCfg_started (payload_of_pending hp))
  have hrest := congrArg List.tail hp
  obtain ⟨t, hrun, hresp⟩ := run_transmits (s := respond [] { s with chan := .started snrDb seed }) hf rfl hxs hrest
  refine ⟨t, (run_succ_of_next hstep xs.length).trans hrun, ?_⟩
  rw [hresp, respond_responses, List.append_assoc]
  rfl

/-- Settles O25: the responses `run_chanCfg_transmits` gives name nothing of the state the block was in. -/
theorem noiseIsReproducible : Obligations.NoiseIsReproducible := by
  intro s u snrDb seed xs hs hu hxs hp hpu
  obtain ⟨s', hrunS, hrespS⟩ := run_chanCfg_transmits hs hxs hp
  obtain ⟨u', hrunU, hrespU⟩ := run_chanCfg_transmits hu hxs (hpu.trans hp)
  refine ⟨s', u', _, hrunS, hrunU, hrespS, hrespU, ?_, fun r hr => ?_⟩
  · rw [List.length_cons, length_transmitResponses]
  · obtain rfl | hr := List.mem_cons.mp hr
    · rfl
    · exact status_of_mem_transmitResponses hr

end Sys2Proof.Machine
end

section
/-! SUPPORT. The demodulator: the word of DEMODULATE, the items it answers, one by one, and the products of a zero that its
corner cases are about (R100). -/

namespace Sys2Proof.Machine

open Sys2Proof.Statements

/-! ## Products of a zero -/

namespace Binary64

@[simp] theorem isZero_neg (x : Num64) : isZero (neg x) = isZero x := by simp [isZero]

theorem neg_zeroOf (s : Bool) : neg (zeroOf s) = zeroOf (!s) := eq_of_sign_magnitude (by simp) (by simp)

@[simp] theorem round_zero (s : Bool) (e : ℤ) : Binary64.round s 0 e = zeroOf s := rfl

/-- A zero times a number is the zero with the exclusive OR of the signs. -/
theorem mul_of_isZero {x y : Num64} (hx : isFinite x = true) (hy : isFinite y = true)
    (h : isZero x = true ∨ isZero y = true) : mul x y = zeroOf (sign x != sign y) := by
  obtain ⟨hxNaN, hxInf⟩ := not_nan_inf_of_finite hx
  obtain ⟨hyNaN, hyInf⟩ := not_nan_inf_of_finite hy
  have hmant : mant x * mant y = 0 := by rwa [Nat.mul_eq_zero, mant_eq_zero_iff, mant_eq_zero_iff]
  simp [mul, hxNaN, hxInf, hyNaN, hyInf, hmant]

theorem isNaN_mul_of_isInf_of_isZero {x y : Num64} (hx : isInf x = true) (hy : isZero y = true) :
    isNaN (mul x y) = true := by
  obtain ⟨hyNaN, -⟩ := not_nan_inf_of_finite (isFinite_of_isZero hy)
  simp [mul, isNaN_of_isInf hx, hyNaN, hx, hy]

end Binary64

/-! ## The soft values of ±0 and of a scale at an end of its range -/

/-- R100: under a finite positive scale a zero component gives the zero of the opposite sign. -/
theorem neg_mul_zeroOf {scale : Num64} (hf : Binary64.isFinite scale = true) (hs : Binary64.sign scale = false)
    (b : Bool) : reference.neg (reference.mul scale (Binary64.zeroOf b)) = Binary64.zeroOf (!b) := by
  have hzero := Binary64.isZero_zeroOf b
  rw [reference_neg, reference_mul, Binary64.mul_of_isZero hf (Binary64.isFinite_of_isZero hzero) (.inr hzero), hs,
    Binary64.sign_zeroOf, Bool.false_bne, Binary64.neg_zeroOf]

/-- R100: under an infinite scale a zero component gives a NaN. -/
theorem isNaN_neg_mul_of_isInf {scale v : Num64} (hs : Binary64.isInf scale = true) (hv : Binary64.isZero v = true) :
    reference.isNaN (reference.neg (reference.mul scale v)) = true := by
  rw [reference_isNaN, reference_neg, reference_mul, Binary64.isNaN_neg]
  exact Binary64.isNaN_mul_of_isInf_of_isZero hs hv

/-- R100: under a scale of 0 every component that is a number gives a zero. -/
theorem isZero_neg_mul_of_isZero {scale v : Num64} (hs : Binary64.isZero scale = true)
    (hv : Binary64.isFinite v = true) : Binary64.isZero (reference.neg (reference.mul scale v)) = true := by
  rw [reference_neg, reference_mul, Binary64.isZero_neg,
    Binary64.mul_of_isZero (Binary64.isFinite_of_isZero hs) hv (.inl hs), Binary64.isZero_zeroOf]

/-! ## DEMODULATE (R100) -/

/-- R100: the word of `DEMODULATE` of n symbols. -/
theorem decodeCmd_demodulate_word {n : Nat} (hn : n < 65536) :
    decodeCmd (BitVec.ofNat 32 (0x00000006 + n * 2 ^ 16)) = .ok (.demodulate n) :=
  decodeCmd_eq_ok_of_caseTable (op := 0x6) (l := 0) (by rw [BitVec.toNat_ofNat]; omega) (by decide) (by decide) rfl

/-- R100: the LLRs are one for each component of the symbols, read off "re then im". -/
theorem softValues_eq_map {α : Type} (N : Numerics α) (scale : α) (ys : List (Cplx α)) :
    softValues N scale ys = (ys.flatMap fun y => [y.re, y.im]).map fun v => N.neg (N.mul scale v) := by
  induction ys with
  | nil => rfl
  | cons y ys ih => simp [softValues, ih]

theorem llrScale_reference : llrScale reference = scaleOf := rfl

theorem exec_demodulate_components {snrDb : Num64} {ys : List (Cplx Num64)} {s : State}
    (hp : s.payload = .num snrDb :: cplxItems ys) : exec (.demodulate ys.length) s =
      .next (respond ((ys.flatMap fun y => [y.re, y.im]).map fun v =>
        .num (reference.neg (reference.mul (scaleOf snrDb) v))) s) := by
  rw [exec_demodulate hp, softValues_eq_map, llrScale_reference, List.map_map]
  rfl

/-- Settles O26: `decodeCmd_demodulate_word` for the word, `exec_demodulate_components` for the answer, and the three
corner cases are `neg_mul_zeroOf`, `isNaN_neg_mul_of_isInf` and `isZero_neg_mul_of_isZero`, which hold of any scale. -/
theorem demodulateAnswersTheSoftValues : Obligations.DemodulateAnswersTheSoftValues := by
  intro n snrDb x s
  refine ⟨decodeCmd_demodulate_word, fun hx hp => ?_, fun hf hs => ?_, fun hinf v hv => ?_, fun hzero v hv => ?_⟩
  · obtain ⟨ys, rfl, rfl⟩ := exists_pairUp hx
    rw [← cplxItems_eq] at hp
    exact ⟨_, exec_demodulate_components hp, sameRegisters_respond _ s, answered_respond _ s⟩
  · exact ⟨neg_mul_zeroOf hf hs false, neg_mul_zeroOf hf hs true⟩
  · exact isNaN_neg_mul_of_isInf (by rw [hinf]; decide) hv
  · exact isZero_neg_mul_of_isZero (by rw [hzero]; decide) hv

end Sys2Proof.Machine
end

section
/-! SUPPORT. The decoder: the table DEC_CFG builds, the metric position by position, the search on the reference numerics, and
the answer of DECODE as a function of DEC and the LLRs alone (R110 to R118). -/

namespace Sys2Proof.Machine

/-! ## DEC_CFG (R110) -/

/-- R110: the word of `DEC_CFG L`. -/
theorem decodeCmd_decCfg_word {l : Nat} (hl : l < 256) :
    decodeCmd (BitVec.ofNat 32 (0x00000007 + l * 2 ^ 8)) = .ok (.decCfg l) :=
  decodeCmd_eq_ok_of_caseTable (op := 0x7) (n := 0) (by rw [BitVec.toNat_ofNat]; omega) (by decide) hl rfl

/-- R110: the decoder that DEC_CFG of a supported length sets up. -/
def Dec.built (g : Gen) (l : Nat) : Dec := ⟨true, BitVec.ofNat 8 l, codewordTable g l⟩

theorem exec_decCfg_of_supported {l : Nat} {s : State} (hp : s.payload = []) (hl : l ∈ supportedLengths) :
    exec (.decCfg l) s = .next (respond [] { s with dec := .built s.gen l }) := by
  rw [exec_decCfg l hp, if_neg (not_not.mpr hl)]
  rfl

theorem exec_decCfg_of_not_supported {l : Nat} {s : State} (hp : s.payload = []) (hl : l ∉ supportedLengths) :
    exec (.decCfg l) s = .next (raise .invalidConfiguration s) := by
  rw [exec_decCfg l hp, if_pos hl]

/-- Settles O29: `decodeCmd_decCfg_word` for the word, and DEC_CFG on each side of SUPPORTED_L. -/
theorem decCfgBuildsTheTableOrKeepsTheDecoder : Obligations.DecCfgBuildsTheTableOrKeepsTheDecoder := by
  intro l s
  refine ⟨decodeCmd_decCfg_word, fun hp hl => ?_, fun hp hl => ?_⟩
  · exact ⟨_, exec_decCfg_of_supported hp hl, answered_respond _ _, rfl, toNat_ofNat_of_supported hl,
      codewordTable_length _ _, codewordTable_getElem? _ _, rfl, rfl, rfl, rfl⟩
  · exact ⟨_, exec_decCfg_of_not_supported hp hl, answered_raise _ s, sameRegisters_raise _ s⟩

/-! ## The metric (R112) -/

/-- R112: the sum runs over the codeword bits and the LLRs in step. -/
theorem metricFrom_eq_foldl {α : Type} (N : Numerics α) (acc : α) (cs : List Bool) (xs : List α) :
    metricFrom N acc cs xs = (cs.zip xs).foldl (fun acc p => N.add acc (if p.1 then p.2 else N.neg p.2)) acc := by
  induction cs generalizing acc xs with
  | nil => rw [metricFrom_nil, List.zip_nil_left, List.foldl_nil]
  | cons c cs ih =>
    cases xs with
    | nil => rfl
    | cons x xs => rw [metricFrom_cons, ih, List.zip_cons_cons, List.foldl_cons]

/-- Two vectors in step are their elements at one position after the other. -/
theorem zip_toList_eq_map_finRange {α β : Type} {n : Nat} (v : Vector α n) (w : Vector β n) :
    v.toList.zip w.toList = (List.finRange n).map fun j => (v[j], w[j]) := by
  apply List.ext_getElem
  · simp
  · intro j _ _
    simp

/-- Settles O30: the sum of `metricFrom_eq_foldl`, its positions written out. -/
theorem metricIsTheOrderedSignedSum : Obligations.MetricIsTheOrderedSignedSum := by
  intro α N cw x
  rw [metric, metricFrom_eq_foldl, zip_toList_eq_map_finRange, List.foldl_map]

/-! ## The search (R113) -/

/-- Settles O31: `search_spec` with the order of the words' keys, which −∞ is the least of. -/
theorem searchReturnsTheLowestGreatestIndex : Obligations.SearchReturnsTheLowestGreatestIndex := by
  intro m hne hnum
  simp only [reference_isNaN] at hnum
  have hgt : ∀ x ∈ m, ∀ y ∈ reference.negInf :: m,
      reference.gt x y = decide (Binary64.orderKey y < Binary64.orderKey x) := by
    intro x hx y hy
    obtain rfl | hy := List.mem_cons.mp hy
    · exact reference_gt_key (hnum x hx) (by decide)
    · exact reference_gt_key (hnum x hx) (hnum y hy)
  obtain ⟨hlt, hgreatest, hlowest⟩ :=
    search_spec reference Binary64.orderKey hne hgt fun x hx => Binary64.negInf_le (hnum x hx)
  refine ⟨_, List.getElem?_eq_getElem hlt, fun j x hj => ?_⟩
  obtain ⟨hjlt, rfl⟩ := List.getElem?_eq_some_iff.mp hj
  have hx := hnum _ (List.getElem_mem hjlt)
  have hv := hnum _ (List.getElem_mem hlt)
  rw [reference_gt, reference_gt, Binary64.gt_eq_false_iff hx hv, Binary64.gt_iff hv hx]
  exact ⟨hgreatest j hjlt, hlowest j⟩

/-! ## DECODE as a function of DEC and the LLRs (R111) -/

/-- R111: the response DECODE sends, none where it ends in the model fault. -/
def decodeResponse (d : Dec) (llr : List Num64) : Option Response :=
  if d.valid = false then some ⟨Status.notConfigured.code, []⟩
  else if llr.length ≠ codewordLength then some ⟨Status.invalidInput.code, []⟩
  else if (metrics reference d.table llr).any reference.isNaN then none
  else some ⟨Status.ok.code, (be (search reference (metrics reference d.table llr)) d.l.toNat).map bitItem⟩

/-- R144: a command that ends with its response, or in the model fault without one. -/
def State.conclude (s : State) : Option Response → State
  | some r => s.answer r
  | none => raiseFault .nanMetric s

@[simp] theorem conclude_dec (s : State) (r : Option Response) : (s.conclude r).dec = s.dec := by cases r <;> rfl
@[simp] theorem conclude_enc (s : State) (r : Option Response) : (s.conclude r).enc = s.enc := by cases r <;> rfl

theorem conclude_fault (s : State) (r : Option Response) :
    (s.conclude r).fault = if r.isNone then some .nanMetric else s.fault := by cases r <;> rfl

theorem conclude_responses (s : State) (r : Option Response) :
    (s.conclude r).responses = s.responses ++ r.toList := by
  cases r
  · exact (List.append_nil _).symm
  · rfl

theorem conclude_with_enc (s : State) (r : Option Response) (e : Enc) :
    ({ s with enc := e } : State).conclude r = { s.conclude r with enc := e } := by cases r <;> rfl

/-- R111: DECODE reads DEC and the LLRs, and ends with the response they determine. -/
theorem exec_decode_eq_conclude {llr : List Num64} {s : State} (hp : s.payload = llr.map .num) :
    exec (.decode llr.length) s = .next (s.conclude (decodeResponse s.dec llr)) := by
  rw [exec_decode hp, decodeResponse]
  split_ifs <;> rfl

theorem decodeResponse_of_not_valid {d : Dec} (hv : d.valid = false) (llr : List Num64) :
    decodeResponse d llr = some ⟨0x03, []⟩ := if_pos hv

theorem decodeResponse_of_length_ne {d : Dec} {llr : List Num64} (hv : d.valid = true) (hn : llr.length ≠ codewordLength) :
    decodeResponse d llr = some ⟨0x02, []⟩ := by
  rw [decodeResponse, if_neg (by simp [hv]), if_pos hn]
  rfl

theorem any_isNaN_metrics_iff {α : Type} (N : Numerics α) (table : List Codeword) (llr : List α) :
    (metrics N table llr).any N.isNaN = true ↔ ∃ c ∈ table, N.isNaN (metric N c llr) = true := by
  simp [metrics]

theorem decodeResponse_of_nan {d : Dec} {llr : List Num64} (hv : d.valid = true) (hn : llr.length = codewordLength)
    (hnan : ∃ c ∈ d.table, reference.isNaN (metric reference c llr) = true) : decodeResponse d llr = none := by
  rw [decodeResponse, if_neg (by simp [hv]), if_neg (not_not.mpr hn), if_pos ((any_isNaN_metrics_iff _ _ _).mpr hnan)]

theorem decodeResponse_of_num {d : Dec} {llr : List Num64} (hv : d.valid = true) (hn : llr.length = codewordLength)
    (hnum : ∀ c ∈ d.table, reference.isNaN (metric reference c llr) = false) :
    decodeResponse d llr =
      some ⟨0x00, (be (search reference (metrics reference d.table llr)) d.l.toNat).map bitItem⟩ := by
  have hany : ¬ (metrics reference d.table llr).any reference.isNaN = true := by
    rw [any_isNaN_metrics_iff]
    rintro ⟨c, hc, hnan⟩
    exact absurd (hnum c hc) (by rw [hnan]; decide)
  rw [decodeResponse, if_neg (by simp [hv]), if_neg (not_not.mpr hn), if_neg hany]
  rfl

/-! ## DECODE answers the most likely vector (R111) -/

/-- R111: the word of `DECODE` of n LLRs. -/
theorem decodeCmd_decode_word {n : Nat} (hn : n < 65536) :
    decodeCmd (BitVec.ofNat 32 (0x00000008 + n * 2 ^ 16)) = .ok (.decode n) :=
  decodeCmd_eq_ok_of_caseTable (op := 0x8) (l := 0) (by rw [BitVec.toNat_ofNat]; omega) (by decide) (by decide) rfl

/-- R23, R24: the table of a configured decoder has an entry. -/
theorem DecLegal.table_ne_nil {s : State} (hs : DecLegal s) (hv : s.dec.valid = true) : s.dec.table ≠ [] := by
  obtain ⟨-, hlength, -⟩ := hs hv
  apply List.ne_nil_of_length_pos
  rw [hlength]
  exact Nat.two_pow_pos _

/-- R111, R113: the index searched for is that of the first entry of the table whose metric none exceeds. -/
theorem search_metrics_spec {table : List Codeword} {llr : List Num64} (hne : table ≠ [])
    (hnum : ∀ c ∈ table, reference.isNaN (metric reference c llr) = false) :
    ∃ cb, table[search reference (metrics reference table llr)]? = some cb ∧
      ∀ (j : Nat) (c : Codeword), table[j]? = some c →
        reference.gt (metric reference c llr) (metric reference cb llr) = false ∧
        (j < search reference (metrics reference table llr) →
          reference.gt (metric reference cb llr) (metric reference c llr) = true) := by
  obtain ⟨v, hv, hspec⟩ := searchReturnsTheLowestGreatestIndex (metrics reference table llr)
    (by simpa [metrics] using hne) (by simpa [metrics] using hnum)
  have hmetrics (j : Nat) : (metrics reference table llr)[j]? = table[j]?.map (metric reference · llr) := List.getElem?_map
  rw [hmetrics, Option.map_eq_some_iff] at hv
  obtain ⟨cb, hcb, rfl⟩ := hv
  exact ⟨cb, hcb, fun j c hj => hspec j _ (by rw [hmetrics, hj, Option.map_some])⟩

/-- Settles O32: `decodeCmd_decode_word` for the word, the four cases of `decodeResponse`, and `search_metrics_spec` for the
index answered. -/
theorem decodeAnswersTheMostLikelyVector : Obligations.DecodeAnswersTheMostLikelyVector := by
  intro n x s
  refine ⟨decodeCmd_decode_word, ?_⟩
  rintro rfl hp
  have hexec := exec_decode_eq_conclude hp
  refine ⟨fun hv => ?_, fun hv hn => ?_, fun hv hn hnan => ?_, fun hv hn hnum hlegal => ?_⟩
  · rw [decodeResponse_of_not_valid hv] at hexec
    exact ⟨_, hexec, answered_raise .notConfigured s, sameRegisters_raise .notConfigured s⟩
  · rw [decodeResponse_of_length_ne hv hn] at hexec
    exact ⟨_, hexec, answered_raise .invalidInput s, sameRegisters_raise .invalidInput s⟩
  · rw [decodeResponse_of_nan hv hn hnan] at hexec
    exact ⟨_, hexec, rfl, rfl, rfl, rfl, rfl, rfl⟩
  · rw [decodeResponse_of_num hv hn hnum] at hexec
    obtain ⟨cb, hcb, hspec⟩ := search_metrics_spec (hlegal.table_ne_nil hv) hnum
    exact ⟨_, _, cb, hexec, sameRegisters_respond _ s, answered_respond _ s, hcb, hspec⟩

/-! ## The decoder and the encoder (R116) -/

theorem exec_decCfg_with_enc {l : Nat} {s t : State} (h : exec (.decCfg l) s = .next t) (e : Enc) :
    t.enc = s.enc ∧ exec (.decCfg l) { s with enc := e } = .next { t with enc := e } := by
  obtain ⟨hshape, -⟩ := exec_cases h
  have hp : s.payload = [] := List.map_eq_nil_iff.mp hshape
  have hpe : ({ s with enc := e } : State).payload = [] := hp
  by_cases hl : l ∈ supportedLengths
  · rw [exec_decCfg_of_supported hp hl] at h
    cases h
    exact ⟨rfl, exec_decCfg_of_supported hpe hl⟩
  · rw [exec_decCfg_of_not_supported hp hl] at h
    cases h
    exact ⟨rfl, exec_decCfg_of_not_supported hpe hl⟩

theorem exec_decode_with_enc {n : Nat} {s t : State} (h : exec (.decode n) s = .next t) (e : Enc) :
    t.enc = s.enc ∧ exec (.decode n) { s with enc := e } = .next { t with enc := e } := by
  obtain ⟨hshape, -⟩ := exec_cases h
  obtain ⟨llr, rfl, hp⟩ := eq_map_num_of_kind hshape
  rw [exec_decode_eq_conclude hp] at h
  cases h
  have hexec : exec (.decode llr.length) { s with enc := e } = _ := exec_decode_eq_conclude hp
  rw [conclude_with_enc] at hexec
  exact ⟨conclude_enc _ _, hexec⟩

/-- R116: of the commands, only DEC_CFG and RESET write DEC. -/
theorem exec_encCfg_dec {l : Nat} {s t : State} (h : exec (.encCfg l) s = .next t) : t.dec = s.dec :=
  (exec_dec h).resolve_right (by simp)

/-- Settles O35: `exec_decCfg_with_enc` and `exec_decode_with_enc` for the decoder's commands, `exec_encCfg_dec` for ENC_CFG. -/
theorem decoderAndEncoderAreIndependent : Obligations.DecoderAndEncoderAreIndependent := by
  refine ⟨?_, fun _ _ _ => exec_encCfg_dec⟩
  rintro i s t e (⟨l, rfl⟩ | ⟨n, rfl⟩) h
  · exact exec_decCfg_with_enc h e
  · exact exec_decode_with_enc h e

/-! ## One table and one result (R118) -/

theorem step_decCfg {s : State} {l : Nat} {rest : List Transaction} (hf : s.fault = none) (hl : l ∈ supportedLengths)
    (hp : s.pending = (Line.decCfg (BitVec.ofNat 8 l)).assemble :: rest) :
    step s = .next (respond [] { s with dec := .built s.gen l }) := by
  have hi : (Line.decCfg (BitVec.ofNat 8 l)).instr = some (.decCfg l) := by
    rw [Line.instr, toNat_ofNat_of_supported hl]
  have hfits : l < 256 := (le_eleven_of_supported hl).trans_lt (by decide)
  rw [step_of_line hf hp hi (decide_eq_true hfits)]
  exact exec_decCfg_of_supported (payload_of_pending hp) hl

theorem step_decode {s : State} {x : List Num64} {rest : List Transaction} (hf : s.fault = none)
    (hx : x.length < 65536) (hp : s.pending = (Line.decode x).assemble :: rest) :
    step s = .next (s.conclude (decodeResponse s.dec x)) := by
  rw [step_of_line hf hp rfl (decide_eq_true hx)]
  exact exec_decode_eq_conclude (payload_of_pending hp)

/-- R118: DEC_CFG of a supported length and then DECODE end as GEN, the length and the LLRs determine. -/
theorem run_decCfg_decode {s : State} {l : Nat} {x : List Num64} {ps : List Transaction} (hf : s.fault = none)
    (hl : l ∈ supportedLengths) (hx : x.length < 65536)
    (hp : s.pending = (Line.decCfg (BitVec.ofNat 8 l)).assemble :: (Line.decode x).assemble :: ps) :
    Sys2Proof.core.run 2 s = .next
      ((respond [] { s with dec := .built s.gen l }).conclude (decodeResponse (.built s.gen l) x)) := by
  have hcfg := step_decCfg hf hl hp
  have hdecode := step_decode (s := respond [] { s with dec := .built s.gen l }) hf hx (congrArg List.tail hp)
  exact (run_succ_of_next hcfg 1).trans (run_succ_of_next hdecode 0)

/-- Settles O36: the end of the run that `run_decCfg_decode` gives names only GEN of what the block held. -/
theorem tablesAndDecodingsAreDetermined : Obligations.TablesAndDecodingsAreDetermined := by
  intro s u l x ps pu hs hu hgen hl hx hps hpu
  have hrunU := run_decCfg_decode hu hl hx hpu
  rw [← hgen] at hrunU
  refine ⟨_, _, ⟨0x00, []⟩ :: (decodeResponse (.built s.gen l) x).toList, run_decCfg_decode hs hl hx hps, hrunU,
    ?_, ?_, ?_, ?_⟩
  · rw [conclude_dec, conclude_dec, respond_dec, respond_dec]
  · rw [conclude_fault, conclude_fault, respond_fault, respond_fault, hs, hu]
  · rw [conclude_responses, respond_responses, List.append_assoc]
    rfl
  · rw [conclude_responses, respond_responses, List.append_assoc]
    rfl

end Sys2Proof.Machine
end

section
/-! SUPPORT. RESET, and what the commands of its units answer until they are configured again (R130, R141). -/

namespace Sys2Proof.Machine

open Sys2Proof.Statements

/-- R130: the word of `RESET`. -/
theorem decodeCmd_reset_word : decodeCmd 0x0000000F = .ok .reset :=
  decodeCmd_eq_ok_of_caseTable (op := 0xF) (l := 0) (n := 0) (by decide) (by decide) (by decide) rfl

theorem exec_decode_of_not_valid {llr : List Num64} {s : State} (hp : s.payload = llr.map .num) (hv : s.dec.valid = false) :
    exec (.decode llr.length) s = .next (raise .notConfigured s) := by
  rw [exec_decode hp, if_pos hv]

/-- R141: while no unit is configured, the commands that need one answer NOT_CONFIGURED. -/
theorem exec_of_no_unit_configured {i : Instr} {s : State} (henc : s.enc.valid = false) (hchan : s.chan.valid = false)
    (hdec : s.dec.valid = false) (hi : ∃ n, i = .encode n ∨ i = .transmit n ∨ i = .decode n)
    (hp : IsRequestPayload i s.payload) : exec i s = .next (raise .notConfigured s) := by
  obtain ⟨n, rfl | rfl | rfl⟩ := hi
  · obtain ⟨d, rfl, hd⟩ := hp
    exact exec_encode_of_not_valid hd henc
  · obtain ⟨ys, rfl, hys⟩ := hp
    rw [← cplxItems_eq_flatMap] at hys
    exact exec_transmit_of_not_valid hys hchan
  · obtain ⟨llr, rfl, hllr⟩ := hp
    exact exec_decode_of_not_valid hllr hdec

/-- Settles O40: `decodeCmd_reset_word` for the word, `exec_reset` for the effect, and `exec_of_no_unit_configured` in the
state RESET leaves. -/
theorem resetUnconfiguresEveryUnit : Obligations.ResetUnconfiguresEveryUnit := by
  refine ⟨decodeCmd_reset_word, fun s hp => ⟨_, exec_reset hp, answered_respond [] _, rfl, rfl, rfl, rfl, rfl, rfl, ?_⟩⟩
  intro i hi hreq
  exact ⟨_, exec_of_no_unit_configured rfl rfl rfl hi hreq, sameRegisters_raise _ _, answered_raise .notConfigured _⟩

end Sys2Proof.Machine
end

section
/-! SUPPORT. The status each command ends with (R141, R142), and that a status other than OK writes no register (R143). -/

namespace Sys2Proof.Machine

open Sys2Proof.Statements

/-! ## The status of a command (R141, R142) -/

/-- R56, R144: from `s` the block has answered with the status, FAULT kept; with none it has stopped in the model fault and
sent no response. -/
def EndsWithStatus (s t : State) : Option Byte → Prop
  | some c => ∃ items, t.responses = s.responses ++ [⟨c, items⟩] ∧ t.fault = s.fault
  | none => t.responses = s.responses ∧ t.fault = some .nanMetric

theorem endsWithStatus_raise (st : Status) (s : State) : EndsWithStatus s (raise st s) (some st.code) := ⟨[], rfl, rfl⟩

/-- R14: `respond` ends with OK, whichever of the other registers the command has written before it. -/
theorem endsWithStatus_respond {s u : State} (items : List Item) (hr : u.responses = s.responses)
    (hf : u.fault = s.fault) : EndsWithStatus s (respond items u) (some Status.ok.code) :=
  ⟨items, by rw [respond_responses, hr], hf⟩

theorem endsWithStatus_conclude (s : State) (r : Option Response) :
    EndsWithStatus s (s.conclude r) (r.map Response.status) := by
  cases r with
  | none => exact ⟨rfl, rfl⟩
  | some r => exact ⟨r.items, rfl, rfl⟩

/-- R71, R110: the check of the length that ENC_CFG and DEC_CFG share. -/
theorem endsWithStatus_lengthCheck {l : Nat} {s u : State} (hr : u.responses = s.responses) (hf : u.fault = s.fault) :
    EndsWithStatus s (if l ∉ supportedLengths then raise .invalidConfiguration s else respond [] u)
      (some (if l ∈ supportedLengths then 0x00 else 0x01)) := by
  by_cases hl : l ∈ supportedLengths
  · rw [if_neg (not_not.mpr hl), if_pos hl]
    exact endsWithStatus_respond [] hr hf
  · rw [if_pos hl, if_neg hl]
    exact endsWithStatus_raise .invalidConfiguration s

theorem exec_encode_status {d : List Byte} {s : State} (hp : s.payload = d.map .bit) :
    ∃ t, exec (.encode d.length) s = .next t ∧ EndsWithStatus s t (statusOf s (.encode d.length)) := by
  rw [statusOf, hp, bitsOf_map_bit]
  by_cases hv : s.enc.valid = false
  · rw [if_pos hv]
    exact ⟨_, exec_encode_of_not_valid hp hv, endsWithStatus_raise .notConfigured s⟩
  have hvalid : s.enc.valid = true := Bool.eq_true_of_not_eq_false hv
  rw [if_neg hv]
  by_cases hd : d.length ≠ s.enc.l.toNat ∨ ∃ b ∈ d, b ≠ 0 ∧ b ≠ 1
  · rw [if_pos hd]
    exact ⟨_, exec_encode_of_invalid hp hvalid hd, endsWithStatus_raise .invalidInput s⟩
  · rw [if_neg hd]
    rw [not_or, not_not, ← all_isBinary_eq_false_iff, Bool.not_eq_false, all_isBinary_iff] at hd
    obtain ⟨hlen, hbits⟩ := hd
    exact ⟨_, exec_encode_of_valid hp hvalid hlen hbits, endsWithStatus_respond _ rfl rfl⟩

theorem exec_modulate_status {b : List Byte} {s : State} (hp : s.payload = b.map .bit) :
    ∃ t, exec (.modulate b.length) s = .next t ∧ EndsWithStatus s t (statusOf s (.modulate b.length)) := by
  rw [statusOf]
  obtain heven | hodd := Nat.mod_two_eq_zero_or_one b.length
  · rw [if_neg (by omega)]
    exact ⟨_, exec_modulate_of_even hp heven, endsWithStatus_respond _ rfl rfl⟩
  · rw [if_pos hodd]
    exact ⟨_, exec_modulate_of_odd hp hodd, endsWithStatus_raise .invalidInput s⟩

theorem exec_transmit_status {ys : List (Cplx Num64)} {s : State} (hp : s.payload = cplxItems ys) :
    ∃ t, exec (.transmit ys.length) s = .next t ∧ EndsWithStatus s t (statusOf s (.transmit ys.length)) := by
  rw [statusOf]
  by_cases hv : s.chan.valid = false
  · rw [if_pos hv]
    exact ⟨_, exec_transmit_of_not_valid hp hv, endsWithStatus_raise .notConfigured s⟩
  · rw [if_neg hv]
    exact ⟨_, exec_transmit_of_valid hp (Bool.eq_true_of_not_eq_false hv), endsWithStatus_respond _ rfl rfl⟩

/-- R141, R142: the status of the response DECODE sends, in the order of its checks. -/
theorem statusOf_decode {llr : List Num64} {s : State} (hp : s.payload = llr.map .num) :
    statusOf s (.decode llr.length) = (decodeResponse s.dec llr).map Response.status := by
  simp only [statusOf, hp, numsOf_map_num, decodeResponse, any_isNaN_metrics_iff, codewordLength]
  split_ifs <;> rfl

theorem exec_decode_status {llr : List Num64} {s : State} (hp : s.payload = llr.map .num) :
    ∃ t, exec (.decode llr.length) s = .next t ∧ EndsWithStatus s t (statusOf s (.decode llr.length)) := by
  rw [statusOf_decode hp]
  exact ⟨_, exec_decode_eq_conclude hp, endsWithStatus_conclude s _⟩

/-- R141: on its request payload every command ends with the status of the table. -/
theorem exec_status {i : Instr} {s : State} (hp : IsRequestPayload i s.payload) :
    ∃ t, exec i s = .next t ∧ EndsWithStatus s t (statusOf s i) := by
  cases i with
  | encCfg l => exact ⟨_, exec_encCfg l hp, endsWithStatus_lengthCheck rfl rfl⟩
  | encode n =>
    obtain ⟨d, rfl, hd⟩ := hp
    exact exec_encode_status hd
  | modulate n =>
    obtain ⟨b, rfl, hb⟩ := hp
    exact exec_modulate_status hb
  | chanCfg =>
    obtain ⟨snrDb, seed, hx⟩ := hp
    exact ⟨_, exec_chanCfg hx, endsWithStatus_respond [] rfl rfl⟩
  | transmit n =>
    obtain ⟨ys, rfl, hys⟩ := hp
    exact exec_transmit_status (hys.trans (cplxItems_eq_flatMap ys).symm)
  | demodulate n =>
    obtain ⟨snrDb, ys, rfl, hys⟩ := hp
    rw [← cplxItems_eq_flatMap] at hys
    exact ⟨_, exec_demodulate hys, endsWithStatus_respond _ rfl rfl⟩
  | decCfg l => exact ⟨_, exec_decCfg l hp, endsWithStatus_lengthCheck rfl rfl⟩
  | decode n =>
    obtain ⟨llr, rfl, hllr⟩ := hp
    exact exec_decode_status hllr
  | reset => exact ⟨_, exec_reset hp, endsWithStatus_respond [] rfl rfl⟩

/-- R54: 2N NUM items are the items of N Cplx. -/
theorem exists_cplx_of_kind {n : Nat} {p : List Item} (h : p.map Item.kind = List.replicate (2 * n) .num) :
    ∃ ys : List (Cplx Num64), ys.length = n ∧ p = ys.flatMap fun y => [.num y.re, .num y.im] := by
  obtain ⟨xs, hlen, rfl⟩ := eq_map_num_of_kind h
  obtain ⟨ys, hys, rfl⟩ := exists_pairUp hlen
  exact ⟨ys, hys, by rw [← cplxItems_eq, cplxItems_eq_flatMap]⟩

/-- R55, R59: items of the number and types the command word calls for are a request payload of the command. -/
theorem isRequestPayload_of_kind {i : Instr} {p : List Item} (h : p.map Item.kind = payloadShape i) :
    IsRequestPayload i p := by
  cases i with
  | encCfg l => exact List.map_eq_nil_iff.mp h
  | encode n => exact eq_map_bit_of_kind h
  | modulate n => exact eq_map_bit_of_kind h
  | chanCfg =>
    match p, h with
    | [.num snrDb, .seed seed], _ => exact ⟨snrDb, seed, rfl⟩
  | transmit n => exact exists_cplx_of_kind h
  | demodulate n =>
    match p, h with
    | .num snrDb :: p, h =>
      obtain ⟨ys, hys, rfl⟩ := exists_cplx_of_kind (List.cons.inj h).2
      exact ⟨snrDb, ys, hys, rfl⟩
  | decCfg l => exact List.map_eq_nil_iff.mp h
  | decode n => exact eq_map_num_of_kind h
  | reset => exact List.map_eq_nil_iff.mp h

theorem endsWithStatus_of_exec {i : Instr} {s t : State} (h : exec i s = .next t) :
    EndsWithStatus s t (statusOf s i) := by
  obtain ⟨u, hu, hstatus⟩ := exec_status (isRequestPayload_of_kind (exec_next_iff.mp ⟨t, h⟩))
  cases h.symm.trans hu
  exact hstatus

/-- R131: a step on an illegal word raises ILLEGAL_COMMAND. -/
theorem step_eq_next_of_illegal {s t : State} {tr : Transaction} {rest : List Transaction} {e : Illegal}
    (hp : s.pending = tr :: rest) (he : decodeCmd tr.word = .error e) (h : step s = .next t) :
    t = raise .illegalCommand s := by
  obtain ⟨hf, -⟩ := step_cases h
  rw [step_of_illegal hf hp he] at h
  exact (performIllegal_eq_next h).2

/-- Settles O13: `endsWithStatus_of_exec` for the commands, `step_eq_next_of_illegal` for the illegal words. -/
theorem eachCommandAnswersItsTabledStatus : Obligations.EachCommandAnswersItsTabledStatus := by
  refine ⟨fun i s t h => endsWithStatus_of_exec h, ?_⟩
  rintro s t tr rest hp ⟨e, he⟩ h
  rw [step_eq_next_of_illegal hp he h]
  exact raise_responses s .illegalCommand

/-! ## A status other than OK (R143) -/

/-- R14, R144: the ways a command ends: `raise`, `respond` after the responses sent before, or the model fault. -/
theorem exec_ends {i : Instr} {s t : State} (h : exec i s = .next t) :
    (∃ st, t = raise st s) ∨ (∃ items u, t = respond items u ∧ u.responses = s.responses) ∨
      t = raiseFault .nanMetric s := by
  obtain ⟨-, ⟨st, -, ht⟩ | ⟨_, ht⟩ | ⟨_, -, -, ht⟩ | ⟨-, _, _, _, ht⟩ | ⟨_, _, -, ht⟩ | ⟨_, -, -, ht⟩ | ⟨_, -, ht⟩ |
    ⟨-, ht⟩⟩ := exec_cases h
  exacts [.inl ⟨st, ht⟩, .inr (.inl ⟨_, _, ht, rfl⟩), .inr (.inl ⟨_, _, ht, rfl⟩), .inr (.inl ⟨_, _, ht, rfl⟩),
    .inr (.inl ⟨_, _, ht, rfl⟩), .inr (.inl ⟨_, _, ht, rfl⟩), .inr (.inr ht), .inr (.inl ⟨_, _, ht, rfl⟩)]

/-- R143: a step that sends a response raised its status, or answered OK. -/
theorem step_sends {s t : State} {r : Response} (h : step s = .next t) (hr : t.responses = s.responses ++ [r]) :
    (∃ st : Status, t = raise st s ∧ r = ⟨st.code, []⟩) ∨ r.status = 0x00 := by
  have hsent {r' : Response} (hr' : t.responses = s.responses ++ [r']) : r = r' :=
    List.singleton_inj.mp (List.append_cancel_left (hr.symm.trans hr'))
  have hsilent (hr' : t.responses = s.responses) : False := by simp [hr'] at hr
  obtain ⟨-, ⟨-, rfl⟩ | ⟨_, _, -, ⟨_, -, -, rfl⟩ | ⟨i, -, hi⟩⟩⟩ := step_cases h
  · exact (hsilent rfl).elim
  · exact .inl ⟨_, rfl, hsent rfl⟩
  · obtain ⟨st, rfl⟩ | ⟨items, u, rfl, hu⟩ | rfl := exec_ends hi
    · exact .inl ⟨st, rfl, hsent rfl⟩
    · rw [hsent (by rw [respond_responses, hu])]
      exact .inr rfl
    · exact (hsilent rfl).elim

/-- Settles O14: by `step_sends` a status other than OK was raised, and `raise` writes no register and sends no item. -/
theorem nonOkStatusWritesNoState : Obligations.NonOkStatusWritesNoState := by
  intro s t r h hr hstatus
  obtain ⟨st, rfl, rfl⟩ := (step_sends h hr).resolve_right hstatus
  exact ⟨sameRegisters_raise st s, rfl⟩

end Sys2Proof.Machine
end

section
/-! SUPPORT. Power-on reset, and RESET compared with it (R30, R160, R161). -/

namespace Sys2Proof.Machine

open Sys2Proof.Statements

/-- R30, R160: the ROM holds parameter GEN from power-on. -/
@[simp] theorem reset_gen : State.reset.gen = Config.gen := rfl

/-- R161: the block after RESET differs in no register from one whose units were already at their reset values. -/
theorem sameRegisters_respond_reset {s : State} (henc : s.enc = .reset) (hdec : s.dec = .reset) (hchan : s.chan = .reset)
    (items : List Item) :
    SameRegisters s (respond items { s with enc := .reset, dec := .reset, chan := .reset }) :=
  ⟨rfl, henc.symm, hdec.symm, hchan.symm, rfl⟩

/-- Settles O39: the reset state's fields, one lemma for each. -/
theorem powerOnResetState : Obligations.PowerOnResetState :=
  ⟨reset_gen, reset_enc_valid, reset_dec_valid, reset_dec_table, reset_chan_valid, reset_fault⟩

/-- Settles O41: `exec_reset` for the effect, `sameRegisters_respond_reset` for a block already reset, and `step_of_fault`
for a faulted one, which stops before the word at its port is read. -/
theorem resetEqualsPowerOnButForFault : Obligations.ResetEqualsPowerOnButForFault := by
  refine ⟨fun s hp => ⟨_, exec_reset hp, rfl, rfl, rfl, rfl, rfl, ?_⟩, ?_⟩
  · intro henc hdec hchan
    exact sameRegisters_respond_reset henc hdec hchan []
  · intro s f _ hf _
    exact step_of_fault hf

end Sys2Proof.Machine
end

section
/-! SUPPORT. Encoding and decoding undo one another, and the rows of the opcode table (R53) read as the decoder does. -/

namespace Sys2Proof

open Sys2Proof.Machine Sys2Proof.Statements

/-! ## decode and encode are inverse (R51, R57) -/

/-- Settles O5: `decodeCmd_encode`, from R57's table at the instruction's opcode and fields. -/
theorem decodingAnEncodedInstructionGivesItBack : Obligations.DecodingAnEncodedInstructionGivesItBack :=
  fun _ => decodeCmd_encode

theorem fieldCheck_eq_ok_iff {c : Bool} {i j : Instr} : fieldCheck c i = .ok j ↔ c = true ∧ i = j := by
  cases c <;> simp [fieldCheck]

theorem decodeOp_of_decodeCmd {w : Word} {i : Instr} (h : decodeCmd w = .ok i) :
    rsvField w = 0 ∧ decodeOp (opField w) (lField w) (nField w) = .ok i := by
  unfold decodeCmd at h
  split at h
  · cases h
  · next hrsv => exact ⟨not_not.mp hrsv, h⟩

/-- The `case op of` of R57 gives an instruction only at that instruction's own opcode and fields. -/
theorem fields_of_decodeOp {op : BitVec 4} {l : BitVec 8} {n : BitVec 16} {i : Instr} (h : decodeOp op l n = .ok i) :
    op.toNat = i.opcode.toNat ∧ l.toNat = i.lengthField ∧ n.toNat = i.countField := by
  unfold decodeOp at h
  split at h
  case h_10 => cases h
  all_goals
    next hop =>
      obtain ⟨hzero, rfl⟩ := fieldCheck_eq_ok_iff.mp h
      simp only [Bool.and_eq_true, beq_zero_iff_toNat] at hzero
      simp [hop, hzero, Instr.opcode, Instr.lengthField, Instr.countField]

/-- An instruction has a command word when its fields fit (R51). -/
theorem wf_of_fields_lt {i : Instr} (hl : i.lengthField < 256) (hn : i.countField < 65536) : i.wf = true := by
  cases i
  case encCfg => exact decide_eq_true hl
  case decCfg => exact decide_eq_true hl
  case chanCfg => rfl
  case reset => rfl
  all_goals exact decide_eq_true hn

/-- Settles O6: the word's fields are those of the instruction (`fields_of_decodeOp`), and a word is its fields. -/
theorem encodingADecodedWordGivesItBack : Obligations.EncodingADecodedWordGivesItBack := by
  intro w i h
  obtain ⟨hrsv, h⟩ := decodeOp_of_decodeCmd h
  obtain ⟨hop, hl, hn⟩ := fields_of_decodeOp h
  have hwf : i.wf = true := wf_of_fields_lt (hl ▸ (lField w).isLt) (hn ▸ (nField w).isLt)
  refine ⟨hwf, BitVec.eq_of_toNat_eq ?_⟩
  have hfields := congrArg BitVec.toNat (append_fields w)
  rw [toNat_append_fields, hrsv, hop, hl, hn] at hfields
  rw [toNat_encode hwf, ← hfields]
  simp

/-! ## The rows of the opcode table (R53) -/

theorem decodeCmd_of_rsv_eq_zero {w : Word} (h : rsvField w = 0) :
    decodeCmd w = decodeOp (opField w) (lField w) (nField w) := if_neg (not_not.mpr h)

/-- R53: under the mask of a row that uses L, the word is the opcode with that L. -/
theorem decodeCmd_of_mask_noLength {w : Word} {o : BitVec 4} (h : w &&& 0xFFFF00FF = 0#16 ++ 0#8 ++ 0#4 ++ o) :
    decodeCmd w = decodeOp o (lField w) 0 := by
  obtain ⟨hn, hrsv, hop⟩ := (mask_noLength w o).mp h
  rw [decodeCmd_of_rsv_eq_zero hrsv, hop, hn]

theorem decodeCmd_of_mask_noCount {w : Word} {o : BitVec 4} (h : w &&& 0x0000FFFF = 0#16 ++ 0#8 ++ 0#4 ++ o) :
    decodeCmd w = decodeOp o 0 (nField w) := by
  obtain ⟨hl, hrsv, hop⟩ := (mask_noCount w o).mp h
  rw [decodeCmd_of_rsv_eq_zero hrsv, hop, hl]

theorem decodeCmd_of_mask_all {w : Word} {o : BitVec 4} (h : w &&& 0xFFFFFFFF = 0#16 ++ 0#8 ++ 0#4 ++ o) :
    decodeCmd w = decodeOp o 0 0 := by
  obtain ⟨hn, hl, hrsv, hop⟩ := (mask_all w o).mp h
  rw [decodeCmd_of_rsv_eq_zero hrsv, hop, hl, hn]

/-- A word that is a row's decodes to an instruction of the row's mnemonic. -/
theorem exists_decode_of_row {w : Word} {r : Row} (hr : r ∈ opcodeRows) (h : w &&& r.mask = r.matchBits) :
    ∃ i, decodeCmd w = .ok i ∧ i.mnemonic = r.mnemonic := by
  simp only [opcodeRows, List.mem_cons, List.not_mem_nil, or_false] at hr
  obtain rfl | rfl | rfl | rfl | rfl | rfl | rfl | rfl | rfl := hr
  · exact ⟨_, decodeCmd_of_mask_noLength (o := 0x1) h, rfl⟩
  · exact ⟨_, decodeCmd_of_mask_noCount (o := 0x2) h, rfl⟩
  · exact ⟨_, decodeCmd_of_mask_noCount (o := 0x3) h, rfl⟩
  · exact ⟨_, decodeCmd_of_mask_all (o := 0x4) h, rfl⟩
  · exact ⟨_, decodeCmd_of_mask_noCount (o := 0x5) h, rfl⟩
  · exact ⟨_, decodeCmd_of_mask_noCount (o := 0x6) h, rfl⟩
  · exact ⟨_, decodeCmd_of_mask_noLength (o := 0x7) h, rfl⟩
  · exact ⟨_, decodeCmd_of_mask_noCount (o := 0x8) h, rfl⟩
  · exact ⟨_, decodeCmd_of_mask_all (o := 0xF) h, rfl⟩

/-- R53: an instruction's row: its opcode under the mask of the fields it does not use. -/
def Instr.row (i : Instr) : Row :=
  ⟨i.mnemonic, 0#16 ++ 0#8 ++ 0#4 ++ i.opcode,
    match i with
    | .encCfg _ | .decCfg _ => 0xFFFF00FF
    | .encode _ | .modulate _ | .transmit _ | .demodulate _ | .decode _ => 0x0000FFFF
    | .chanCfg | .reset => 0xFFFFFFFF⟩

theorem row_mem (i : Instr) : i.row ∈ opcodeRows := by
  cases i <;> simp [opcodeRows, Instr.row, Instr.mnemonic, Instr.opcode]

/-- The command word of an instruction is its row's. -/
theorem encode_and_mask (i : Instr) : encode i &&& i.row.mask = i.row.matchBits := by
  obtain ⟨hop, hrsv, hl, hn⟩ := Laws.WordFields.holds i
  cases i
  case encCfg => exact (mask_noLength _ _).mpr ⟨hn, hrsv, hop⟩
  case decCfg => exact (mask_noLength _ _).mpr ⟨hn, hrsv, hop⟩
  case chanCfg => exact (mask_all _ _).mpr ⟨hn, hl, hrsv, hop⟩
  case reset => exact (mask_all _ _).mpr ⟨hn, hl, hrsv, hop⟩
  all_goals exact (mask_noCount _ _).mpr ⟨hl, hrsv, hop⟩

theorem and_mask_of_decode {w : Word} {i : Instr} (h : decodeCmd w = .ok i) : w &&& i.row.mask = i.row.matchBits := by
  obtain ⟨-, rfl⟩ := encodingADecodedWordGivesItBack w i h
  exact encode_and_mask i

/-- Settles O3: a word that decodes is its instruction's row's (`and_mask_of_decode`), and a row's word decodes
(`exists_decode_of_row`). -/
theorem decodeAgreesWithTheMasks : Obligations.DecodeAgreesWithTheMasks := by
  refine fun w => ⟨fun m => ⟨?_, ?_⟩, ⟨?_, ?_⟩⟩
  · rintro ⟨i, hi, rfl⟩
    exact ⟨i.row, row_mem i, rfl, and_mask_of_decode hi⟩
  · rintro ⟨r, hr, rfl, h⟩
    exact exists_decode_of_row hr h
  · rintro ⟨e, he⟩ r hr h
    obtain ⟨i, hi, -⟩ := exists_decode_of_row hr h
    cases he.symm.trans hi
  · intro hnone
    cases hd : decodeCmd w with
    | error e => exact ⟨e, rfl⟩
    | ok i => exact absurd (and_mask_of_decode hd) (hnone i.row (row_mem i))

/-- R53: a mnemonic names one row. -/
theorem row_eq_of_mnemonic : ∀ r ∈ opcodeRows, ∀ r' ∈ opcodeRows, r.mnemonic = r'.mnemonic → r = r' := by decide

/-- Settles O4: the word decodes to one instruction, and both rows are of its mnemonic. -/
theorem noWordMatchesTwoRows : Obligations.NoWordMatchesTwoRows := by
  intro w r r' hr hr' h h'
  obtain ⟨i, hi, hm⟩ := exists_decode_of_row hr h
  obtain ⟨j, hj, hm'⟩ := exists_decode_of_row hr' h'
  cases hi.symm.trans hj
  exact row_eq_of_mnemonic r hr r' hr' (hm.symm.trans hm')

/-! ## Words of V-CD-1, and the words of the assembler lines (R61) -/

/-- Settles O1: the decoder evaluated on each word. -/
theorem tabledWordsDecode : Obligations.TabledWordsDecode :=
  ⟨rfl, rfl, rfl, rfl, rfl, rfl, rfl, rfl, rfl, rfl, rfl, rfl, rfl⟩

theorem assemblesTo {line : Line} {i : Instr} (hi : line.instr = some i) (hw : i.wf = true)
    (hp : IsRequestPayload i line.assemble.payload) : AssemblesTo line i line.assemble.payload :=
  ⟨hi, decodeCmd_assemble hi hw, rfl, hp⟩

/-- Settles O8: `assemblesTo` for each line; the items of symbols are `cplxItems_eq_flatMap`. -/
theorem linesAssembleToTheirCommands : Obligations.LinesAssembleToTheirCommands := by
  refine ⟨fun l => ⟨?_, ?_⟩, fun d hd => ⟨?_, ?_⟩, fun snrDb seed => ?_, fun snrDb y hy => ?_, fun x hx => ?_, ?_,
    fun w => ⟨rfl, rfl⟩⟩
  · exact assemblesTo rfl (decide_eq_true l.isLt) rfl
  · exact assemblesTo rfl (decide_eq_true l.isLt) rfl
  · exact assemblesTo rfl (decide_eq_true hd) ⟨d, rfl, rfl⟩
  · exact assemblesTo rfl (decide_eq_true hd) ⟨d, rfl, rfl⟩
  · exact assemblesTo rfl rfl ⟨snrDb, seed, rfl⟩
  · rw [← cplxItems_eq_flatMap]
    exact ⟨assemblesTo rfl (decide_eq_true hy) ⟨y, rfl, cplxItems_eq_flatMap y⟩,
      assemblesTo rfl (decide_eq_true hy) ⟨snrDb, y, rfl, congrArg _ (cplxItems_eq_flatMap y)⟩⟩
  · exact assemblesTo rfl (decide_eq_true hx) ⟨x, rfl, rfl⟩
  · exact assemblesTo rfl rfl rfl

end Sys2Proof
end

section
/-! SUPPORT. Which transactions get a step, how a command ends, and what every step keeps of the registers. -/

namespace Sys2Proof.Machine

open Sys2Proof.Statements

/-! ## Steps and transactions -/

/-- Settles O9: `step_of_decode`. -/
theorem stepPerformsTheDecodedCommand : Obligations.StepPerformsTheDecodedCommand :=
  fun _ _ _ _ => step_of_decode

/-- Settles O10: `step_of_idle`. -/
theorem idleBlockWaits : Obligations.IdleBlockWaits := fun _ => step_of_idle

/-- R131, log 10: an illegal word with a payload gets no step. -/
theorem performIllegal_of_ne_nil {s : State} (h : s.payload ≠ []) : performIllegal s = .refused .notAdmitted :=
  perform_of_not_shape (by simpa using h)

/-- Settles O11: `exec_status` performs a command on its request payload; items of the shape the meaning checks are a request
payload (`isRequestPayload_of_kind`), so any other payload is refused. -/
theorem onlyAdmittedTransactionsGetAStep : Obligations.OnlyAdmittedTransactionsGetAStep := by
  refine ⟨fun i s => ⟨fun hp => ?_, fun hp => ?_⟩, fun s t rest hf hpend hw hne => ?_⟩
  · obtain ⟨t, ht, -⟩ := exec_status hp
    exact ⟨t, ht⟩
  · exact exec_of_not_shape (mt isRequestPayload_of_kind hp)
  · obtain ⟨e, he⟩ := (decodeCmd_error_iff t.word).mpr hw
    rw [step_of_illegal hf hpend he]
    exact performIllegal_of_ne_nil (by rwa [payload_of_pending hpend])

/-- R50: a command that ends takes its transaction off the port. -/
theorem exec_pending {i : Instr} {s t : State} (h : exec i s = .next t) : t.pending = s.pending.tail := by
  obtain ⟨-, ⟨_, -, rfl⟩ | ⟨_, rfl⟩ | ⟨_, -, -, rfl⟩ | ⟨-, _, _, _, rfl⟩ | ⟨_, _, -, rfl⟩ | ⟨_, -, -, rfl⟩ | ⟨_, -, rfl⟩ |
    ⟨-, rfl⟩⟩ := exec_cases h <;> simp

/-- Settles O12: `exec_status` says how the command ends, `exec_pending` that its transaction is over. -/
theorem everyAdmittedCommandEnds : Obligations.EveryAdmittedCommandEnds := by
  intro i s hp
  obtain ⟨t, ht, hends⟩ := exec_status hp
  refine ⟨t, ht, exec_pending ht, ?_⟩
  cases hst : statusOf s i with
  | some c =>
    rw [hst] at hends
    obtain ⟨items, hresp, hfault⟩ := hends
    exact .inl ⟨_, hresp, hfault⟩
  | none =>
    rw [hst] at hends
    exact .inr hends

/-! ## The registers and the commands that write them (R21 to R27) -/

/-- R22: a command keeps ENC, or is an ENC_CFG of a supported length, or a RESET. -/
theorem exec_enc {i : Instr} {s t : State} (h : exec i s = .next t) :
    t.enc = s.enc ∨ (∃ l ∈ supportedLengths, i = .encCfg l ∧ t.enc = ⟨true, BitVec.ofNat 8 l⟩) ∨
      (i = .reset ∧ t.enc = .reset) := by
  obtain ⟨-, ⟨_, -, rfl⟩ | ⟨_, rfl⟩ | ⟨l, hl, hi, rfl⟩ | ⟨-, _, _, _, rfl⟩ | ⟨_, _, -, rfl⟩ | ⟨_, -, -, rfl⟩ | ⟨_, -, rfl⟩ |
    ⟨hi, rfl⟩⟩ := exec_cases h
  exacts [.inl rfl, .inl rfl, .inr (.inl ⟨l, hl, hi, rfl⟩), .inl rfl, .inl rfl, .inl rfl, .inl rfl, .inr (.inr ⟨hi, rfl⟩)]

/-- R25: a command keeps CHAN, or is a CHAN_CFG or a RESET, or a TRANSMIT, which moves CHAN.K on. -/
theorem exec_chan {i : Instr} {s t : State} (h : exec i s = .next t) :
    t.chan = s.chan ∨ i = .chanCfg ∨ i = .reset ∨ ∃ n, i = .transmit n ∧ t.chan = s.chan.advance n := by
  obtain ⟨-, ⟨_, -, rfl⟩ | ⟨_, rfl⟩ | ⟨_, -, -, rfl⟩ | ⟨hi, _, _, _, rfl⟩ | ⟨n, _, hi, rfl⟩ | ⟨_, -, -, rfl⟩ | ⟨_, -, rfl⟩ |
    ⟨hi, rfl⟩⟩ := exec_cases h
  exacts [.inl rfl, .inl rfl, .inl rfl, .inr (.inl hi), .inr (.inr (.inr ⟨n, hi, rfl⟩)), .inl rfl, .inl rfl,
    .inr (.inr (.inl hi))]

/-- Settles O45: no command writes GEN (`exec_gen`), and neither does waiting or the illegal-command response. -/
theorem noStepWritesGen : Obligations.NoStepWritesGen :=
  fun s _ h => step_keeps (P := fun u => u.gen = s.gen) h rfl (raise_gen s _) fun _ => exec_gen

/-- A step that changes something of the state that waiting and the illegal-command response keep performed a command. -/
theorem performed_of_ne {α : Type} (f : State → α) {s t : State} (h : step s = .next t) (hne : f t ≠ f s)
    (hraise : f (raise .illegalCommand s) = f s) :
    ∃ tr rest i, s.pending = tr :: rest ∧ decodeCmd tr.word = .ok i ∧ exec i s = .next t := by
  obtain ⟨-, ⟨-, rfl⟩ | ⟨tr, rest, hp, ⟨e, -, -, rfl⟩ | ⟨i, hd, hi⟩⟩⟩ := step_cases h
  · exact absurd rfl hne
  · exact absurd hraise hne
  · exact ⟨tr, rest, i, hp, hd, hi⟩

/-- Settles O46: a register changes in a step that performs a command (`performed_of_ne`), and the commands that write it are
those of `exec_enc`, `exec_dec`, `exec_chan` and `exec_fault`. -/
theorem registersAreWrittenByTheirCommandsOnly : Obligations.RegistersAreWrittenByTheirCommandsOnly := by
  intro s t h
  refine ⟨fun hne => ?_, fun hne => ?_, fun hne => ?_, fun hne => ?_⟩
  · obtain ⟨tr, rest, i, hp, hd, hi⟩ := performed_of_ne State.enc h hne rfl
    obtain ⟨l, -, hl, -⟩ | ⟨hr, -⟩ := (exec_enc hi).resolve_left hne
    · exact ⟨tr, rest, i, hp, hd, .inl ⟨l, hl⟩⟩
    · exact ⟨tr, rest, i, hp, hd, .inr hr⟩
  · obtain ⟨tr, rest, i, hp, hd, hi⟩ := performed_of_ne State.dec h hne rfl
    obtain ⟨l, -, hl, -⟩ | ⟨hr, -⟩ := (exec_dec hi).resolve_left hne
    · exact ⟨tr, rest, i, hp, hd, .inl ⟨l, hl⟩⟩
    · exact ⟨tr, rest, i, hp, hd, .inr hr⟩
  · obtain ⟨tr, rest, i, hp, hd, hi⟩ := performed_of_ne State.chan h hne rfl
    exact ⟨tr, rest, i, hp, hd, (exec_chan hi).resolve_left hne⟩
  · obtain ⟨tr, rest, i, hp, hd, hi⟩ := performed_of_ne State.fault h hne rfl
    obtain ⟨hn, -⟩ := (exec_fault hi).resolve_left hne
    exact ⟨tr, rest, i, hp, hd, hn⟩

/-! ## The registers stay legal (R22, R30, R56, R140) -/

theorem exec_keeps_encLegal {i : Instr} {s t : State} (hs : EncLegal s) (h : exec i s = .next t) : EncLegal t := by
  unfold EncLegal
  obtain henc | ⟨l, hl, -, henc⟩ | ⟨-, henc⟩ := exec_enc h <;> rw [henc]
  · exact hs
  · exact fun _ => (toNat_ofNat_of_supported hl).symm ▸ hl
  · exact fun hv => absurd hv (by decide)

theorem exec_keeps_tableEmpty {i : Instr} {s t : State} (hs : TableEmptyUnlessConfigured s) (h : exec i s = .next t) :
    TableEmptyUnlessConfigured t := by
  unfold TableEmptyUnlessConfigured
  obtain hdec | ⟨l, -, -, hdec⟩ | ⟨-, hdec⟩ := exec_dec h <;> rw [hdec]
  · exact hs
  · exact fun hv => absurd hv (by simp)
  · exact fun _ => rfl

/-- R140: the codes of the five statuses are 0 to 4. -/
theorem code_toNat_le (st : Status) : st.code.toNat ≤ 4 := by cases st <;> decide

/-- Responses stay legal when one is added that has a status code and, unless it is OK, no items. -/
theorem ResponsesLegal.append {s t : State} (hs : ResponsesLegal s) {st : Status} {items : List Item}
    (hitems : st ≠ .ok → items = []) (h : t.responses = s.responses ++ [⟨st.code, items⟩]) : ResponsesLegal t := by
  intro r hr
  rw [h, List.mem_append, List.mem_singleton] at hr
  obtain hr | rfl := hr
  · exact hs r hr
  · exact ⟨code_toNat_le st, fun hne => hitems fun hok => hne (congrArg Status.code hok)⟩

theorem ResponsesLegal.raise {s : State} (hs : ResponsesLegal s) (st : Status) : ResponsesLegal (raise st s) :=
  hs.append (fun _ => rfl) rfl

theorem exec_keeps_responsesLegal {i : Instr} {s t : State} (hs : ResponsesLegal s) (h : exec i s = .next t) :
    ResponsesLegal t := by
  obtain ⟨st, rfl⟩ | ⟨items, u, rfl, hu⟩ | rfl := exec_ends h
  · exact hs.raise st
  · exact hs.append (fun hne => absurd rfl hne) (by rw [respond_responses, hu])
  · exact hs

/-- Settles O43: each of the three is kept by every command, and `raise` writes no register. -/
theorem everyStepKeepsTheRegistersLegal : Obligations.EveryStepKeepsTheRegistersLegal :=
  fun _ _ henc hdec hresp h =>
    ⟨step_keeps h henc henc fun _ => exec_keeps_encLegal henc,
      step_keeps h hdec hdec fun _ => exec_keeps_tableEmpty hdec,
      step_keeps h hresp (hresp.raise _) fun _ => exec_keeps_responsesLegal hresp⟩

/-- Settles O44: after a reset no unit is configured, the table is empty and nothing has been answered. -/
theorem powerOnResetIsLegal : Obligations.PowerOnResetIsLegal :=
  ⟨fun hv => by simp at hv, decLegal_of_not_valid reset_dec_valid, fun _ => reset_dec_table,
    fun _ hr => absurd hr List.not_mem_nil⟩

end Sys2Proof.Machine
end

section
/-! SUPPORT. Coding is linear and, where GEN_rank holds, injective (R74). -/

namespace Sys2Proof.Machine

theorem getD_zipWith_xor {d d' : List Bool} (h : d.length = d'.length) (col : Nat) :
    (List.zipWith xor d d').getD col false = xor (d.getD col false) (d'.getD col false) := by
  by_cases hcol : col < d.length
  · simp [List.getD_eq_getElem?_getD, hcol, h ▸ hcol]
  · have hcol' : d'.length ≤ col := by omega
    simp [List.getD_eq_getElem?_getD, not_lt.mp hcol, hcol']

/-- R74: each codeword bit is an exclusive OR of information bits, so it is linear in them. -/
theorem encodeCore_zipWith_xor (g : Gen) (l : Nat) {d d' : List Bool} (h : d.length = d'.length) (r : Fin 20) :
    (encodeCore g l (List.zipWith xor d d'))[r] = xor (encodeCore g l d)[r] (encodeCore g l d')[r] := by
  simp only [Fin.getElem_fin, encodeCore_getElem, ← xorSum_xor, getD_zipWith_xor h, Bool.and_xor_distrib_left]

/-- R74: where the columns are linearly independent, the difference of two vectors with one codeword selects none of them. -/
theorem encodeCore_injective {g : Gen} (hg : GenRank g) {l : Nat} (hl : l ∈ supportedLengths) {d d' : List Bool}
    (hd : d.length = l) (hd' : d'.length = l) (h : encodeCore g l d = encodeCore g l d') : d = d' := by
  have hlen : d.length = d'.length := hd.trans hd'.symm
  have hzero : ∀ col < l, (List.zipWith xor d d').getD col false = false := by
    refine hg l hl _ fun r => ?_
    have hr := encodeCore_zipWith_xor g l hlen r
    rw [h, Bool.xor_self, Fin.getElem_fin, encodeCore_getElem] at hr
    exact hr
  refine List.ext_getElem hlen fun col hcol hcol' => ?_
  have hbit := hzero col (hd ▸ hcol)
  rw [getD_zipWith_xor hlen, bne_eq_false_iff_eq] at hbit
  simpa [List.getD_eq_getElem?_getD, hcol, hcol'] using hbit

/-- Settles O19: `encodeCore_zipWith_xor`, which holds of any length, and `encodeCore_injective`. -/
theorem codingIsLinearAndInjective : Obligations.CodingIsLinearAndInjective :=
  fun g l _ _ hl hd hd' =>
    ⟨encodeCore_zipWith_xor g l (hd.trans hd'.symm), fun hg => encodeCore_injective hg hl hd hd'⟩

end Sys2Proof.Machine
end

section
/-! SUPPORT. One TRANSMIT against two (R91), a DECODE that meets a NaN metric (R114), and the items an OK answer of DECODE
has (R115). -/

namespace Sys2Proof.Machine

/-! ## Splitting a TRANSMIT (R91) -/

/-- R91: the symbols after `a` draw their samples where those of `a` ended. -/
theorem addNoise_append {α : Type} (N : Numerics α) (sample : Nat → α) (k : Nat) (a b : List (Cplx α)) :
    addNoise N sample k (a ++ b) = addNoise N sample k a ++ addNoise N sample (k + 2 * a.length) b := by
  induction a generalizing k with
  | nil => rfl
  | cons y a ih =>
    have hk : k + 2 + 2 * a.length = k + 2 * (a.length + 1) := by omega
    simp only [List.cons_append, addNoise, ih, List.length_cons, hk]

theorem noisy_append (c : Chan) (a b : List (Cplx Num64)) :
    c.noisy (a ++ b) = c.noisy a ++ (c.advance a.length).noisy b := addNoise_append _ _ _ _ _

theorem advance_add (c : Chan) (m n : Nat) : (c.advance m).advance n = c.advance (m + n) := by
  simp only [Chan.advance, Nat.mul_add, Nat.add_assoc]

theorem cplxItems_append (a b : List (Cplx Num64)) : cplxItems (a ++ b) = cplxItems a ++ cplxItems b := by
  simp

/-- Settles O24: `step_transmit` for each TRANSMIT; the channel and the samples are `advance_add` and `noisy_append`. -/
theorem splittingATransmitChangesNothing : Obligations.SplittingATransmitChangesNothing := by
  rintro s _ a b hf hv hlen hp rfl
  have hwhole := step_transmit hf hv (by rwa [List.length_append]) hp
  have hfirst := step_transmit (s := { s with pending := [(Line.transmit a).assemble, (Line.transmit b).assemble] })
    hf hv (by omega) rfl
  have hsecond := step_transmit (s := respond (cplxItems (s.chan.noisy a))
    { s with pending := [(Line.transmit a).assemble, (Line.transmit b).assemble], chan := s.chan.advance a.length })
    hf hv (by omega) rfl
  refine ⟨_, _, cplxItems (s.chan.noisy a), cplxItems ((s.chan.advance a.length).noisy b), run_succ_of_next hwhole 0,
    (run_succ_of_next hfirst 1).trans (run_succ_of_next hsecond 0), ?_, ?_, ?_⟩
  · rw [respond_chan, respond_chan, List.length_append, ← advance_add]
    rfl
  · rw [respond_responses, noisy_append, cplxItems_append]
    rfl
  · rw [respond_responses, respond_responses, List.append_assoc]
    rfl

/-! ## A NaN metric (R114) -/

/-- R144: a faulted state is no good end of a run, and no run goes on from it. -/
theorem not_goodRun_of_fault {s t : State} {f : Fault} (hf : s.fault = some f) (k : Nat) : ¬ GoodRun k s t := by
  rintro ⟨hrun, hgood⟩
  cases k with
  | zero => cases hrun; rw [hf] at hgood; cases hgood
  | succ k => rw [run_succ_of_fault hf] at hrun; cases hrun

/-- Settles O33: `decodeResponse_of_nan` for the DECODE, `step_of_fault` and `not_goodRun_of_fault` for what follows. -/
theorem nanMetricStopsTheBlock : Obligations.NanMetricStopsTheBlock := by
  intro s x rest hf hv hx hp hnan
  have hword : decodeCmd 0x00140008 = .ok (.decode x.length) := by rw [hx]; rfl
  have hstep := step_of_decode hf hp hword
  rw [exec_decode_eq_conclude (payload_of_pending hp), decodeResponse_of_nan hv hx hnan] at hstep
  exact ⟨_, hstep, rfl, rfl, fun p => step_of_fault rfl, fun k u => not_goodRun_of_fault rfl k⟩

/-! ## The items DECODE answers (R115) -/

/-- R111: an OK response of DECODE is BE of the index searched for. -/
theorem items_of_decodeResponse {d : Dec} {llr : List Num64} {items : List Item}
    (h : decodeResponse d llr = some ⟨0x00, items⟩) :
    items = (be (search reference (metrics reference d.table llr)) d.l.toNat).map bitItem := by
  unfold decodeResponse at h
  split_ifs at h
  · simp [Status.code] at h
  · simp [Status.code] at h
  · simpa [Status.code] using h.symm

theorem bitItem_eq_or (b : Bool) : bitItem b = .bit 0 ∨ bitItem b = .bit 1 := by cases b <;> simp [bitItem]

/-- Settles O34: `items_of_decodeResponse`, and R42's expansion element by element. -/
theorem decodedVectorHasLBinaryElements : Obligations.DecodedVectorHasLBinaryElements := by
  intro n s t items h hresp
  obtain ⟨llr, rfl, hp⟩ := eq_map_num_of_kind (exec_next_iff.mp ⟨t, h⟩)
  rw [exec_decode_eq_conclude hp] at h
  cases h
  rw [conclude_responses] at hresp
  have hitems := items_of_decodeResponse (Option.toList_eq_singleton_iff.mp (List.append_cancel_left hresp))
  rw [hp, numsOf_map_num]
  refine ⟨?_, fun x hx => ?_, hitems, fun col hcol => ?_⟩
  · rw [hitems, List.length_map, be_length]
  · rw [hitems, List.mem_map] at hx
    obtain ⟨b, -, rfl⟩ := hx
    exact bitItem_eq_or b
  · rw [hitems, List.getElem?_map, be_getElem?_shiftRight hcol, Option.map_some, bitItem]
    simp only [decide_eq_true_eq]

end Sys2Proof.Machine
end

section
/-! SUPPORT. The reference numerics: `neg` and `>` on every word, and each operation correctly rounded (R8, G3, log 1). -/

namespace Sys2Proof.Machine

open Sys2Proof.Statements

namespace Binary64

/-! ## neg and the order of words -/

/-- R8: `neg` flips the sign bit. -/
theorem neg_eq_xor (x : Num64) : neg x = x ^^^ 0x8000000000000000 := by
  have htop : BitVec.msb (0x8000000000000000 : Num64) = true := by decide
  refine eq_of_sign_magnitude ?_ ?_
  · rw [sign_neg, sign, sign, BitVec.msb_xor, htop, Bool.xor_true]
  · rw [magnitude_neg, magnitude, magnitude, BitVec.toNat_xor, Nat.xor_mod_two_pow]
    simp

theorem value_neg (x : Num64) : value (neg x) = -value x := by
  rw [value_eq, value_eq, sign_neg, magnitude_neg]
  cases sign x <;> simp [neg_div]

theorem infOf_false : infOf false = plusInf := by decide
theorem infOf_true : infOf true = minusInf := by decide

theorem isInf_iff (x : Num64) : isInf x = true ↔ x = plusInf ∨ x = minusInf := by
  constructor
  · intro h
    have hx := eq_infOf h
    cases hs : sign x
    · exact .inl (by rw [hx, hs, infOf_false])
    · exact .inr (by rw [hx, hs, infOf_true])
  · rintro (rfl | rfl) <;> decide

theorem isNaN_eq_false_iff (x : Num64) : isNaN x = false ↔ isFinite x = true ∨ x = plusInf ∨ x = minusInf := by
  rw [← isInf_iff]
  rcases classes x with ⟨hf, hi, hn⟩ | ⟨hf, hi, hn⟩ | ⟨hf, hi, hn⟩ <;> simp [hf, hi, hn]

theorem units_zero : units 0 = 0 := by simp [units, mantBits]

theorem units_eq_zero_iff (b : Nat) : units b = 0 ↔ b = 0 :=
  ⟨fun h => units_strictMono.injective (h.trans units_zero.symm), fun h => h ▸ units_zero⟩

/-- The values of finite words are in the order of their keys. -/
theorem value_lt_iff (x y : Num64) : value y < value x ↔ orderKey y < orderKey x := by
  have hmono : (units (magnitude y) : ℚ) < units (magnitude x) ↔ magnitude y < magnitude x := by
    rw [Nat.cast_lt, units_strictMono.lt_iff_lt]
  have hmono' : (units (magnitude x) : ℚ) < units (magnitude y) ↔ magnitude x < magnitude y := by
    rw [Nat.cast_lt, units_strictMono.lt_iff_lt]
  have hx := units_eq_zero_iff (magnitude x)
  have hy := units_eq_zero_iff (magnitude y)
  rw [value_eq, value_eq, div_lt_div_iff_of_pos_right (by positivity), orderKey, orderKey]
  cases sign y <;> cases sign x <;> simp only [Bool.false_eq_true, if_true, if_false, one_mul, neg_one_mul]
  · rw [hmono, Nat.cast_lt]
  · have : ¬ ((units (magnitude y) : ℚ) < -units (magnitude x)) :=
      not_lt.mpr ((neg_nonpos.mpr (Nat.cast_nonneg _)).trans (Nat.cast_nonneg _))
    simp only [this, false_iff]
    omega
  · have hcast : -(units (magnitude y) : ℚ) < units (magnitude x) ↔ 0 < units (magnitude y) + units (magnitude x) := by
      rw [neg_lt_iff_pos_add']
      exact_mod_cast Iff.rfl
    rw [hcast]
    omega
  · rw [neg_lt_neg_iff, hmono', neg_lt_neg_iff, Nat.cast_lt]

theorem orderKey_plusInf : orderKey plusInf = infBits := by decide
theorem orderKey_minusInf : orderKey minusInf = -infBits := by decide

theorem orderKey_le {x : Num64} (hx : isNaN x = false) : orderKey x ≤ infBits := by
  have hm : magnitude x ≤ infBits := by simpa [isNaN] using hx
  rw [orderKey]
  split <;> omega

theorem orderKey_eq_infBits_iff (x : Num64) : orderKey x = infBits ↔ x = plusInf := by
  refine ⟨fun h => ?_, fun h => h ▸ orderKey_plusInf⟩
  rw [orderKey, infBits] at h
  cases hs : sign x <;> simp only [hs, if_true, Bool.false_eq_true, if_false] at h
  · exact eq_of_sign_magnitude (hs.trans (by decide)) (by rw [← infOf_false, magnitude_infOf, infBits]; omega)
  · omega

theorem orderKey_eq_neg_infBits_iff (x : Num64) : orderKey x = -infBits ↔ x = minusInf := by
  refine ⟨fun h => ?_, fun h => h ▸ orderKey_minusInf⟩
  rw [orderKey, infBits] at h
  cases hs : sign x <;> simp only [hs, if_true, Bool.false_eq_true, if_false] at h
  · omega
  · exact eq_of_sign_magnitude (hs.trans (by decide)) (by rw [← infOf_true, magnitude_infOf, infBits]; omega)

/-- +∞ is above every other number, and −∞ below. -/
theorem gt_infinities {x : Num64} (hx : isNaN x = false) :
    (gt plusInf x = true ↔ x ≠ plusInf) ∧ gt x plusInf = false ∧
      (gt x minusInf = true ↔ x ≠ minusInf) ∧ gt minusInf x = false := by
  have hplus : isNaN plusInf = false := by decide
  have hminus : isNaN minusInf = false := by decide
  have hle := orderKey_le hx
  have hge := negInf_le hx
  change orderKey minusInf ≤ orderKey x at hge
  rw [gt_iff hplus hx, gt_eq_false_iff hx hplus, gt_iff hx hminus, gt_eq_false_iff hminus hx, ne_eq, ne_eq,
    ← orderKey_eq_infBits_iff, ← orderKey_eq_neg_infBits_iff, orderKey_plusInf, orderKey_minusInf]
  rw [orderKey_minusInf] at hge
  refine ⟨?_, hle, ?_, hge⟩ <;> omega

theorem gt_eq_false_of_isNaN {x y : Num64} (h : isNaN x = true ∨ isNaN y = true) : gt x y = false := by
  obtain h | h := h <;> simp [gt, h]

end Binary64

open Binary64

/-- Settles O51: `neg_eq_xor` and `value_neg`; the classes of words; `value_lt_iff` and `gt_infinities` for the order. -/
theorem negationAndComparison : Obligations.NegationAndComparison := by
  simp only [Obligations.NegationAndComparison, reference_neg, reference_isNaN, reference_gt]
  refine ⟨fun x => ⟨neg_eq_xor x, fun _ => value_neg x⟩, isNaN_eq_false_iff, fun x y hx hy => ?_,
    fun x => gt_infinities, rfl, fun x y => gt_eq_false_of_isNaN⟩
  rw [gt_iff (not_nan_inf_of_finite hx).1 (not_nan_inf_of_finite hy).1, value_lt_iff]

end Sys2Proof.Machine
end

section
/-! SUPPORT. The operations of the reference numerics, each correctly rounded (R8, G3, log 1). -/

namespace Sys2Proof.Machine

open Sys2Proof.Statements

namespace Binary64

/-- The least positive number's exponent, as an integer and as a natural. -/
theorem zpow_1074 : (2 : ℝ) ^ (1074 : ℤ) = 2 ^ 1074 := zpow_natCast 2 1074

/-! ## Addition -/

/-- The sum of two finite numbers, in units of their smaller quantum. -/
def exactSum (x y : Num64) : ℤ :=
  signedMant x (min (quantum x) (quantum y)) + signedMant y (min (quantum x) (quantum y))

theorem add_of_finite {x y : Num64} (hx : isFinite x = true) (hy : isFinite y = true) :
    add x y = if exactSum x y = 0 then zeroOf (sign x && sign y)
      else Binary64.round (decide (exactSum x y < 0)) (exactSum x y).natAbs (min (quantum x) (quantum y) : ℕ) := by
  obtain ⟨hxNaN, hxInf⟩ := not_nan_inf_of_finite hx
  obtain ⟨hyNaN, hyInf⟩ := not_nan_inf_of_finite hy
  simp only [add, hxNaN, hxInf, hyNaN, hyInf, Bool.or_self, Bool.false_eq_true, if_false]
  rfl

theorem exactSum_value (x y : Num64) :
    (exactSum x y : ℝ) * 2 ^ min (quantum x) (quantum y) / 2 ^ 1074 = value x + value y := by
  rw [← signedMant_value x (min_le_left (quantum x) (quantum y)),
    ← signedMant_value y (min_le_right (quantum x) (quantum y)), exactSum, Int.cast_add, add_mul, add_div]

theorem exactSum_eq_zero_iff (x y : Num64) : exactSum x y = 0 ↔ value x + value y = 0 := by
  have h := exactSum_value x y
  have hq : (2 : ℝ) ^ min (quantum x) (quantum y) ≠ 0 := by positivity
  have hT : (2 : ℝ) ^ 1074 ≠ 0 := by positivity
  constructor
  · intro h0
    rw [h0, Int.cast_zero, zero_mul, zero_div] at h
    exact_mod_cast h.symm
  · intro h0
    have h0' : (value x : ℝ) + value y = 0 := by exact_mod_cast h0
    rw [h0', div_eq_zero_iff, or_iff_left hT, mul_eq_zero, or_iff_left hq] at h
    exact_mod_cast h

/-- An integer is its sign and its absolute value. -/
theorem signFactor_mul_natAbs (n : ℤ) : (if decide (n < 0) = true then -1 else 1) * (n.natAbs : ℝ) = n := by
  rw [Nat.cast_natAbs, Int.cast_abs]
  by_cases h : n < 0
  · have : (n : ℝ) < 0 := by exact_mod_cast h
    simp [h, abs_of_neg this]
  · have : (0 : ℝ) ≤ n := by exact_mod_cast not_lt.mp h
    simp [h, abs_of_nonneg this]

theorem roundsTo_add {x y : Num64} (hx : isFinite x = true) (hy : isFinite y = true) :
    RoundsTo (value x + value y) (add x y) := by
  rw [add_of_finite hx hy]
  by_cases h : exactSum x y = 0
  · rw [if_pos h, ← exactSum_value, h, Int.cast_zero, zero_mul, zero_div]
    exact roundsTo_zeroOf _
  · rw [if_neg h, ← exactSum_value]
    have := roundsTo_round (decide (exactSum x y < 0)) (exactSum x y).natAbs (min (quantum x) (quantum y) : ℕ)
    rwa [← mul_assoc, signFactor_mul_natAbs, zpow_natCast] at this

theorem zeroOf_true : zeroOf true = 0x8000000000000000 := by decide
theorem zeroOf_false : zeroOf false = 0x0000000000000000 := by decide

/-- Two numbers whose exact sum is zero are both negative only where both are −0. -/
theorem both_negative_iff {x y : Num64} (h : value x + value y = 0) :
    (sign x && sign y) = true ↔ x = 0x8000000000000000 ∧ y = 0x8000000000000000 := by
  rw [Bool.and_eq_true]
  constructor
  · rintro ⟨hx, hy⟩
    have hvx := value_nonpos hx
    have hvy := value_nonpos hy
    have zx := eq_zeroOf ((value_eq_zero_iff x).mp (by linarith))
    have zy := eq_zeroOf ((value_eq_zero_iff y).mp (by linarith))
    rw [hx, zeroOf_true] at zx
    rw [hy, zeroOf_true] at zy
    exact ⟨zx, zy⟩
  · rintro ⟨rfl, rfl⟩
    decide

theorem add_of_sum_zero {x y : Num64} (hx : isFinite x = true) (hy : isFinite y = true) (h : value x + value y = 0) :
    add x y = if x = 0x8000000000000000 ∧ y = 0x8000000000000000 then 0x8000000000000000 else 0x0000000000000000 := by
  rw [add_of_finite hx hy, if_pos ((exactSum_eq_zero_iff x y).mpr h)]
  by_cases hs : (sign x && sign y) = true
  · rw [if_pos ((both_negative_iff h).mp hs), hs, zeroOf_true]
  · rw [if_neg (mt (both_negative_iff h).mpr hs), Bool.eq_false_of_not_eq_true hs, zeroOf_false]

/-- An infinity and a number, or an infinity of the same sign, sum to that infinity. -/
theorem add_of_isInf_left {x y : Num64} (hx : isInf x = true) (hy : isNaN y = false)
    (h : isInf y = true → sign x = sign y) : add x y = x := by
  have hxNaN := isNaN_of_isInf hx
  cases hyInf : isInf y
  · simp [add, hxNaN, hx, hy, hyInf]
  · simp [add, hxNaN, hx, hy, hyInf, h hyInf]

theorem add_of_isInf_right {x y : Num64} (hy : isInf y = true) (hx : isNaN x = false)
    (h : isInf x = true → sign x = sign y) : add x y = y := by
  have hyNaN := isNaN_of_isInf hy
  cases hxInf : isInf x
  · simp [add, hyNaN, hx, hy, hxInf]
  · rw [add_of_isInf_left hxInf hyNaN fun _ => h hxInf]
    rw [eq_infOf hxInf, eq_infOf hy, h hxInf]

theorem isNaN_add_of_opposite {x y : Num64} (hx : isInf x = true) (hy : isInf y = true) (h : sign x ≠ sign y) :
    isNaN (add x y) = true := by
  simp [add, isNaN_of_isInf hx, isNaN_of_isInf hy, hx, hy, h]

/-! ## Multiplication -/

theorem mul_of_finite {x y : Num64} (hx : isFinite x = true) (hy : isFinite y = true) :
    mul x y = Binary64.round (sign x != sign y) (mant x * mant y) ((quantum x : ℤ) + quantum y - 1074) := by
  obtain ⟨hxNaN, hxInf⟩ := not_nan_inf_of_finite hx
  obtain ⟨hyNaN, hyInf⟩ := not_nan_inf_of_finite hy
  simp [mul, hxNaN, hxInf, hyNaN, hyInf]

/-- The signs of a product's operands as factors. -/
theorem signFactor_mul (s t : Bool) :
    (if s then -1 else 1 : ℝ) * (if t then -1 else 1) = if (s != t) = true then -1 else 1 := by
  cases s <;> cases t <;> simp

theorem roundsTo_mul {x y : Num64} (hx : isFinite x = true) (hy : isFinite y = true) :
    RoundsTo (value x * value y) (mul x y) := by
  rw [mul_of_finite hx hy]
  have := roundsTo_round (sign x != sign y) (mant x * mant y) ((quantum x : ℤ) + quantum y - 1074)
  convert this using 1
  rw [value_real, value_real, ← signFactor_mul, zpow_sub₀ (by norm_num), zpow_add₀ (by norm_num)]
  push_cast [zpow_natCast]
  rw [zpow_1074]
  generalize (2 : ℝ) ^ 1074 = T
  ring

theorem sign_mul {x y : Num64} (h : isNaN (mul x y) = false) : sign (mul x y) = xor (sign x) (sign y) := by
  unfold mul at h ⊢
  split at h
  · simp at h
  · next hnan =>
    rw [if_neg hnan]
    split at h
    · split at h
      · simp at h
      · next hinf hzero => rw [if_pos hinf, if_neg hzero, sign_infOf]
    · next hinf => rw [if_neg hinf, sign_round]

theorem isNaN_mul_of_isZero_of_isInf {x y : Num64} (hx : isZero x = true) (hy : isInf y = true) :
    isNaN (mul x y) = true := by
  obtain ⟨hxNaN, -⟩ := not_nan_inf_of_finite (isFinite_of_isZero hx)
  simp [mul, isNaN_of_isInf hy, hxNaN, hx, hy]

theorem isInf_mul_of_isInf {x y : Num64} (hx : isInf x = true) (hy : isNaN y = false) (hy0 : isZero y = false) :
    isInf (mul x y) = true ∧ isInf (mul y x) = true := by
  simp [mul, isNaN_of_isInf hx, isZero_of_isInf hx, hx, hy, hy0]

/-! ## Division -/

theorem div_of_finite {x y : Num64} (hx : isFinite x = true) (hy : isFinite y = true) (hy0 : isZero y = false) :
    div x y = Binary64.round (sign x != sign y) (stickyDiv 120 (mant x) (mant y))
      ((quantum x : ℤ) - quantum y + 1074 - 121) := by
  obtain ⟨hxNaN, hxInf⟩ := not_nan_inf_of_finite hx
  obtain ⟨hyNaN, hyInf⟩ := not_nan_inf_of_finite hy
  simp [div, hxNaN, hxInf, hyNaN, hyInf, hy0]

/-- A quotient of normalised or subnormal significands keeps 67 bits or more. -/
theorem two_pow_le_quotient {m d : ℕ} (hm : m ≠ 0) (hd : d < 2 ^ 53) (hd0 : d ≠ 0) : 2 ^ 54 ≤ m * 2 ^ 120 / d := by
  rw [Nat.le_div_iff_mul_le (Nat.pos_of_ne_zero hd0)]
  have hm' := Nat.pos_of_ne_zero hm
  omega

theorem mant_lt (x : Num64) : mant x < 2 ^ 53 := by
  rw [mant_eq]
  exact mantBits_lt _

theorem mant_ne_zero {x : Num64} (h : isZero x = false) : mant x ≠ 0 := by
  rw [ne_eq, mant_eq_zero_iff, h]
  decide

theorem stickyDiv_zero (k d : ℕ) : stickyDiv k 0 d = 0 := by simp [stickyDiv]

/-- The exact quotient, as the significands' quotient with 120 further bits and the sticky bit stand for it. -/
theorem value_div_value (x y : Num64) :
    (value x : ℝ) / value y = (if (sign x != sign y) = true then -1 else 1) *
      (2 * (mant x * 2 ^ 120 / mant y) * (2 : ℝ) ^ ((quantum x : ℤ) - quantum y + 1074 - 121)) / 2 ^ 1074 := by
  have hsign : (if sign y = true then -1 else 1 : ℝ)⁻¹ = if sign y = true then -1 else 1 := by
    cases sign y <;> simp [inv_neg]
  have hT : (2 : ℝ) ^ 1074 ≠ 0 := by positivity
  rw [value_real, value_real, ← signFactor_mul, zpow_sub₀ (by norm_num), zpow_add₀ (by norm_num),
    zpow_sub₀ (by norm_num), zpow_natCast, zpow_natCast, zpow_1074,
    show (2 : ℝ) ^ (121 : ℤ) = 2 ^ 121 from zpow_natCast 2 121, show (2 : ℝ) ^ 121 = 2 * 2 ^ 120 from pow_succ' 2 120,
    div_div_div_cancel_right₀ hT, mul_div_mul_comm, div_eq_mul_inv (if sign x = true then -1 else 1 : ℝ), hsign]
  generalize (2 : ℝ) ^ 1074 = T at *
  field_simp

theorem roundsTo_div {x y : Num64} (hx : isFinite x = true) (hy : isFinite y = true) (hy0 : isZero y = false) :
    RoundsTo (value x / value y) (div x y) := by
  rw [div_of_finite hx hy hy0]
  cases hx0 : isZero x with
  | true =>
    rw [(value_eq_zero_iff x).mpr hx0, (mant_eq_zero_iff x).mpr hx0, stickyDiv_zero, round_zero, Rat.cast_zero, zero_div]
    exact roundsTo_zeroOf _
  | false =>
    have hd := mant_ne_zero hy0
    obtain ⟨a, s, hst, hlo, hhi, hs, ha⟩ := stickyDiv_spec 120 (mant x) (mant y) hd
    rw [value_div_value, hst]
    exact roundsTo_round_sticky _ _ hlo hhi hs (.inl (ha ▸ two_pow_le_quotient (mant_ne_zero hx0) (mant_lt y) hd))

theorem sign_div {x y : Num64} (h : isNaN (div x y) = false) : sign (div x y) = xor (sign x) (sign y) := by
  unfold div at h ⊢
  split_ifs at h ⊢ with hnan hx hy hy hy0 hx0
  · simp at h
  · simp at h
  · exact sign_infOf _
  · exact sign_zeroOf _
  · simp at h
  · exact sign_infOf _
  · exact sign_round _ _ _

theorem isInf_div_of_isZero {x y : Num64} (hx : isNaN x = false) (hx0 : isZero x = false) (hy0 : isZero y = true) :
    isInf (div x y) = true := by
  obtain ⟨hyNaN, hyInf⟩ := not_nan_inf_of_finite (isFinite_of_isZero hy0)
  cases hxInf : isInf x <;> simp [div, hx, hx0, hy0, hyNaN, hyInf, hxInf]

theorem isInf_div_of_isInf {x y : Num64} (hx : isInf x = true) (hy : isFinite y = true) : isInf (div x y) = true := by
  obtain ⟨hyNaN, hyInf⟩ := not_nan_inf_of_finite hy
  simp [div, isNaN_of_isInf hx, hx, hyNaN, hyInf]

theorem isZero_div_of_isInf {x y : Num64} (hx : isFinite x = true) (hy : isInf y = true) : isZero (div x y) = true := by
  obtain ⟨hxNaN, hxInf⟩ := not_nan_inf_of_finite hx
  simp [div, isNaN_of_isInf hy, hy, hxNaN, hxInf]

theorem isNaN_div_of_isZero {x y : Num64} (hx : isZero x = true) (hy : isZero y = true) : isNaN (div x y) = true := by
  obtain ⟨hxNaN, hxInf⟩ := not_nan_inf_of_finite (isFinite_of_isZero hx)
  obtain ⟨hyNaN, hyInf⟩ := not_nan_inf_of_finite (isFinite_of_isZero hy)
  simp [div, hxNaN, hxInf, hyNaN, hyInf, hx, hy]

theorem isNaN_div_of_isInf {x y : Num64} (hx : isInf x = true) (hy : isInf y = true) : isNaN (div x y) = true := by
  simp [div, isNaN_of_isInf hx, isNaN_of_isInf hy, hx, hy]

/-! ## Square root -/

theorem sqrt_of_isZero {x : Num64} (h : isZero x = true) : sqrt x = x := by
  obtain ⟨hNaN, -⟩ := not_nan_inf_of_finite (isFinite_of_isZero h)
  simp [sqrt, hNaN, h]

theorem isNaN_sqrt_of_sign {x : Num64} (h0 : isZero x = false) (hs : sign x = true) : isNaN (sqrt x) = true := by
  cases hNaN : isNaN x <;> simp [sqrt, hNaN, h0, hs]

theorem sqrt_of_finite {x : Num64} (hx : isFinite x = true) (h0 : isZero x = false) (hs : sign x = false) :
    sqrt x = Binary64.round false (stickySqrt (mant x <<< (120 + quantum x % 2)))
      (((quantum x : ℤ) - 1074 - (120 + quantum x % 2 : ℕ)) / 2 + 1074 - 1) := by
  obtain ⟨hNaN, hInf⟩ := not_nan_inf_of_finite hx
  simp [sqrt, hNaN, hInf, h0, hs]

/-- The scaled significand has from 121 to 175 bits. -/
theorem scaled_bounds {m k : ℕ} (hm : m ≠ 0) (hlt : m < 2 ^ 53) (hk : 120 ≤ k) (hk' : k ≤ 121) :
    2 ^ 120 ≤ m * 2 ^ k ∧ m * 2 ^ k < 2 ^ 180 := by
  have hpos := Nat.pos_of_ne_zero hm
  obtain rfl | rfl : k = 120 ∨ k = 121 := by omega
  · omega
  · omega

theorem two_pow_le_isqrt {n : ℕ} (hlo : 2 ^ 120 ≤ n) (hhi : n < 2 ^ 180) : 2 ^ 54 ≤ isqrt n := by
  obtain ⟨-, h⟩ := isqrt_spec hhi
  by_contra hc
  have hle : isqrt n + 1 ≤ 2 ^ 54 := by omega
  have := Nat.mul_le_mul hle hle
  omega

/-- The exact root: the root of the scaled significand, its exponent halved. -/
theorem sqrt_value {x : Num64} (hs : sign x = false) {k : ℕ} {j : ℤ} (hj : (quantum x : ℤ) - 1074 - k = 2 * j) :
    Real.sqrt (value x) = 2 * Real.sqrt ((mant x * 2 ^ k : ℕ) : ℝ) * (2 : ℝ) ^ (j + 1074 - 1) / 2 ^ 1074 := by
  have h2 : (0 : ℝ) < (2 : ℝ) ^ j := by positivity
  have hscale : (2 : ℝ) ^ quantum x / 2 ^ 1074 = 2 ^ k * ((2 : ℝ) ^ j * 2 ^ j) := by
    rw [← zpow_natCast, ← zpow_natCast, ← zpow_natCast, ← zpow_sub₀ (by norm_num), ← zpow_add₀ (by norm_num),
      ← zpow_add₀ (by norm_num)]
    congr 1
    push_cast
    omega
  have hvalue : (value x : ℝ) = ((mant x * 2 ^ k : ℕ) : ℝ) * ((2 : ℝ) ^ j * 2 ^ j) := by
    rw [value_real, hs, if_neg (by decide), one_mul, mul_div_assoc, hscale, Nat.cast_mul, Nat.cast_pow, Nat.cast_ofNat,
      mul_assoc]
  rw [hvalue, Real.sqrt_mul (Nat.cast_nonneg _), Real.sqrt_mul_self h2.le, zpow_sub₀ (by norm_num),
    zpow_add₀ (by norm_num), zpow_one, zpow_1074]
  have hT : (2 : ℝ) ^ 1074 ≠ 0 := by positivity
  generalize (2 : ℝ) ^ 1074 = T at *
  field_simp

theorem roundsTo_sqrt {x : Num64} (hx : isFinite x = true) (h : 0 ≤ value x) :
    RoundsTo (Real.sqrt (value x)) (sqrt x) := by
  cases h0 : isZero x with
  | true =>
    rw [sqrt_of_isZero h0, (value_eq_zero_iff x).mpr h0, Rat.cast_zero, Real.sqrt_zero, eq_zeroOf h0]
    exact roundsTo_zeroOf _
  | false =>
    have hs : sign x = false := by
      by_contra hc
      have hv := le_antisymm (value_nonpos (Bool.eq_true_of_not_eq_false hc)) h
      rw [(value_eq_zero_iff x).mp hv] at h0
      exact absurd h0 (by decide)
    rw [sqrt_of_finite hx h0 hs, Nat.shiftLeft_eq]
    obtain ⟨j, hj⟩ : ∃ j : ℤ, (quantum x : ℤ) - 1074 - (120 + quantum x % 2 : ℕ) = 2 * j :=
      ⟨((quantum x : ℤ) - 1074 - (120 + quantum x % 2 : ℕ)) / 2, by push_cast; omega⟩
    obtain ⟨hlo, hhi⟩ := scaled_bounds (k := 120 + quantum x % 2) (mant_ne_zero h0) (mant_lt x) (by omega) (by omega)
    obtain ⟨a, s, hst, ha, ha', hs', rfl⟩ := stickySqrt_spec hhi
    rw [hj, Int.mul_ediv_cancel_left j (by decide), hst, sqrt_value hs hj]
    have := roundsTo_round_sticky false (j + 1074 - 1) ha ha' hs' (.inl (two_pow_le_isqrt hlo hhi))
    rwa [if_neg (by decide), one_mul] at this

/-! ## Decimal literals (R61) -/

theorem roundsTo_ofDecimal (negative : Bool) (digits places : ℕ) :
    RoundsTo ((if negative then -1 else 1) * (digits / 10 ^ places : ℝ)) (ofDecimal negative digits places) := by
  obtain ⟨a, s, hst, hlo, hhi, hs, -⟩ := stickyDiv_spec 1200 digits (10 ^ places) (by positivity)
  rw [ofDecimal, hst]
  have := roundsTo_round_sticky negative (1074 - 1201) hlo hhi hs (.inr (by norm_num))
  convert this using 1
  have hT : (2 : ℝ) ^ 1074 ≠ 0 := by positivity
  have hS : (2 : ℝ) ^ 1200 ≠ 0 := by positivity
  rw [zpow_sub₀ (by norm_num), zpow_1074,
    show (2 : ℝ) ^ (1201 : ℤ) = 2 ^ 1201 from zpow_natCast 2 1201, show (2 : ℝ) ^ 1201 = 2 * 2 ^ 1200 from pow_succ' 2 1200,
    Nat.cast_pow, Nat.cast_ofNat]
  generalize (2 : ℝ) ^ 1074 = T at *
  generalize (2 : ℝ) ^ 1200 = S at *
  field_simp

end Binary64

open Binary64

/-- Settles O47: `roundsTo_add` and `add_of_sum_zero` for numbers, `add_of_isInf_left` and `add_of_isInf_right` for an
infinity that meets no opposite one. -/
theorem additionIsCorrectlyRounded : Obligations.AdditionIsCorrectlyRounded := by
  simp only [Obligations.AdditionIsCorrectlyRounded, reference_add, reference_isNaN]
  have hplus : isInf plusInf = true := by decide
  have hminus : isInf minusInf = true := by decide
  refine ⟨fun x y hx hy => ⟨roundsTo_add hx hy, add_of_sum_zero hx hy⟩, fun x hx => ⟨fun hne => ?_, fun hne => ?_⟩,
    isNaN_add_of_opposite hplus hminus (by decide), isNaN_add_of_opposite hminus hplus (by decide),
    fun x y => isNaN_add⟩
  · have hsame : isInf x = true → x = plusInf := fun hinf => ((isInf_iff x).mp hinf).resolve_right hne
    exact ⟨add_of_isInf_left hplus hx fun h => by rw [hsame h], add_of_isInf_right hplus hx fun h => by rw [hsame h]⟩
  · have hsame : isInf x = true → x = minusInf := fun hinf => ((isInf_iff x).mp hinf).resolve_left hne
    exact ⟨add_of_isInf_left hminus hx fun h => by rw [hsame h], add_of_isInf_right hminus hx fun h => by rw [hsame h]⟩

/-- Settles O48: `roundsTo_mul` for numbers, `sign_mul` for the sign of every product that is no NaN, and the products of an
infinity. -/
theorem multiplicationIsCorrectlyRounded : Obligations.MultiplicationIsCorrectlyRounded := by
  simp only [Obligations.MultiplicationIsCorrectlyRounded, reference_mul, reference_isNaN]
  exact fun x y => ⟨roundsTo_mul, sign_mul,
    fun hx hy => ⟨isNaN_mul_of_isInf_of_isZero hx hy, isNaN_mul_of_isZero_of_isInf hy hx⟩,
    isInf_mul_of_isInf, isNaN_mul⟩

/-- Settles O49: `roundsTo_div` for numbers, `sign_div` for the sign of every quotient that is no NaN, and the quotients with a
zero or an infinity. -/
theorem divisionIsCorrectlyRounded : Obligations.DivisionIsCorrectlyRounded := by
  simp only [Obligations.DivisionIsCorrectlyRounded, reference_div, reference_isNaN]
  refine fun x y => ⟨fun hx hy hy0 => roundsTo_div hx hy ?_, sign_div, isInf_div_of_isZero, isInf_div_of_isInf,
    isZero_div_of_isInf, ?_⟩
  · rwa [ne_eq, value_eq_zero_iff, Bool.not_eq_true] at hy0
  · rintro (⟨hx, hy⟩ | ⟨hx, hy⟩ | h)
    · exact isNaN_div_of_isZero hx hy
    · exact isNaN_div_of_isInf hx hy
    · exact isNaN_div h

/-- Settles O50: `roundsTo_sqrt` for numbers that are not negative, `isNaN_sqrt_of_sign` for the negative ones. -/
theorem squareRootIsCorrectlyRounded : Obligations.SquareRootIsCorrectlyRounded := by
  simp only [Obligations.SquareRootIsCorrectlyRounded, reference_sqrt, reference_isNaN]
  refine ⟨fun x hx => ⟨roundsTo_sqrt hx, fun h => sqrt_of_isZero ((value_eq_zero_iff x).mp h), fun h => ?_⟩,
    by decide, isNaN_sqrt_of_sign (by decide) (by decide), fun x => isNaN_sqrt⟩
  refine isNaN_sqrt_of_sign ?_ ?_
  · rw [← Bool.not_eq_true, ← value_eq_zero_iff]
    exact h.ne
  · by_contra hs
    exact absurd h (not_lt.mpr (value_nonneg (Bool.eq_false_of_not_eq_true hs)))

/-- Settles O52: `roundsTo_ofDecimal`, and the words of AMP and −AMP. -/
theorem decimalLiteralsReadAsTheNearest : Obligations.DecimalLiteralsReadAsTheNearest :=
  ⟨roundsTo_ofDecimal, rfl, rfl, rfl, amp_eq, (reference_neg amp).trans neg_amp_eq⟩

end Sys2Proof.Machine
end

section
/-! SUPPORT. Values of the reference configuration at the points the spec tables: the energy of a symbol (R82), noiseless LLRs
(R117), and σ and LLRs at the SNR values of V-CH-1 and V-DM. -/

namespace Sys2Proof.Machine

open Sys2Proof.Statements

theorem axisOf_zero : axisOf 0 = 0x3FE6A09E667F3BCC := (if_pos rfl).trans amp_eq

theorem axisOf_of_ne_zero {b : Byte} (h : b ≠ 0) : axisOf b = 0xBFE6A09E667F3BCC := by
  rw [axisOf, if_neg h, reference_neg, neg_amp_eq]

theorem mul_axisOf_self (b : Byte) : reference.mul (axisOf b) (axisOf b) = 0x3FDFFFFFFFFFFFFE := by
  by_cases h : b = 0
  · rw [h, axisOf_zero]
    decide +kernel
  · rw [axisOf_of_ne_zero h]
    decide +kernel

/-- Settles O21: the square of either axis is the same word (`mul_axisOf_self`), so one energy is computed. -/
theorem symbolEnergyIsOneWithinTolerance : Obligations.SymbolEnergyIsOneWithinTolerance := by
  intro re im
  have henergy : reference.add 0x3FDFFFFFFFFFFFFE 0x3FDFFFFFFFFFFFFE = 0x3FEFFFFFFFFFFFFE := by decide +kernel
  have hsqrt : reference.sqrt 0x3FEFFFFFFFFFFFFE = 0x3FEFFFFFFFFFFFFF := by decide +kernel
  simp only [mul_axisOf_self, henergy, hsqrt]
  exact ⟨amp_eq, trivial, trivial, by decide +kernel, by decide +kernel⟩

/-- Settles O37: an axis is AMP or −AMP, and each LLR is computed. -/
theorem noiselessSoftValuesAreTwoSigned : Obligations.NoiselessSoftValuesAreTwoSigned := by
  intro b
  by_cases h : b = 0
  · rw [if_pos h, h, axisOf_zero]
    decide +kernel
  · rw [if_neg h, axisOf_of_ne_zero h]
    decide +kernel

/-- R100: at 4000 dB the scale is infinite, so the soft value of a zero is a NaN. -/
theorem isNaN_softValue_zero_at_4000 :
    reference.isNaN (reference.neg (reference.mul (scaleOf 0x40AF400000000000) 0x0000000000000000)) = true :=
  isNaN_neg_mul_of_isInf (by decide +kernel) (by decide)

/-- Settles O27: `isNaN_softValue_zero_at_4000` for the NaN; every other word is computed. -/
theorem valuesAtTheTabledSnrs : Obligations.ValuesAtTheTabledSnrs := by
  refine ⟨?_, ?_, ?_, ?_, ?_, ?_, ?_, ?_, ?_, ?_, ?_, ?_, ?_, ?_, ?_, ?_, ?_, isNaN_softValue_zero_at_4000, ?_⟩
  all_goals decide +kernel

end Sys2Proof.Machine
end

section
/-! SUPPORT. The noiseless round trip (R117): what the host's lines answer at an idle block, the search on noiseless LLRs, and
the macros encmod and demdec put together from them. -/

namespace Sys2Proof.Machine

open Sys2Proof.Statements

/-! ## A line at an idle block (R61, R165) -/

/-- R165: a block the host may issue a line to: unfaulted, with nothing at its port. -/
def Idle (s : State) : Prop := s.fault = none ∧ s.pending = []

/-- A line whose command responds is answered OK with the items, and leaves the block idle, if the command wrote neither FAULT
nor the port before it responded. -/
theorem askOk_of_exec {line : Line} {i : Instr} {s u : State} {items : List Item} (hs : Idle s)
    (hi : line.instr = some i) (hw : i.wf = true)
    (hexec : exec i (s.issueFirst line.assemble) = .next (respond items u))
    (hport : u.fault = s.fault ∧ u.pending = [line.assemble] ∧ u.responses = s.responses) :
    askOk line s = some (respond items u, items) ∧ Idle (respond items u) := by
  obtain ⟨hf, hp⟩ := hs
  obtain ⟨huf, hup, hur⟩ := hport
  have hstep : step (s.issueFirst line.assemble) = .next (respond items u) :=
    (step_of_line (s := s.issueFirst line.assemble) hf rfl hi hw).trans hexec
  have hresp : (respond items u).responses.drop s.responses.length = [⟨Status.ok.code, items⟩] := by
    rw [respond_responses, hur, List.drop_left]
  refine ⟨?_, huf.trans hf, congrArg List.tail hup⟩
  simp only [askOk, ask, hp, hstep, hresp, if_true]

/-- The port of an idle block once the host has issued a line. -/
theorem issueFirst_pending_of_idle {s : State} (hs : Idle s) (t : Transaction) : (s.issueFirst t).pending = [t] :=
  congrArg (t :: ·) hs.2

/-- A supported length fits the L field of a command word (R51). -/
theorem lt_of_supported {l : Nat} (h : l ∈ supportedLengths) : l < 256 := (le_eleven_of_supported h).trans_lt (by decide)

theorem askOk_encCfg {s : State} {l : Nat} (hs : Idle s) (hl : l ∈ supportedLengths) :
    ∃ t, askOk (.encCfg (BitVec.ofNat 8 l)) s = some (t, []) ∧ Idle t ∧ t.gen = s.gen ∧
      t.enc = ⟨true, BitVec.ofNat 8 l⟩ := by
  have hi : (Line.encCfg (BitVec.ofNat 8 l)).instr = some (.encCfg l) := by
    rw [Line.instr, toNat_ofNat_of_supported hl]
  obtain ⟨hask, ht⟩ := askOk_of_exec hs hi (decide_eq_true (lt_of_supported hl)) (exec_encCfg_of_supported rfl hl)
    ⟨rfl, issueFirst_pending_of_idle hs _, rfl⟩
  exact ⟨_, hask, ht, rfl, rfl⟩

theorem askOk_encode {s : State} {d : List Byte} (hs : Idle s) (hv : s.enc.valid = true)
    (hd : d.length = s.enc.l.toNat) (hbits : ∀ b ∈ d, b = 0 ∨ b = 1) :
    ∃ t, askOk (.encode d) s = some (t, (encodeCore s.gen d.length (d.map (· == 1))).toList.map bitItem) ∧ Idle t ∧
      t.gen = s.gen := by
  have hfits : d.length < 65536 := by have := s.enc.l.isLt; omega
  obtain ⟨hask, ht⟩ := askOk_of_exec (line := .encode d) hs rfl (decide_eq_true hfits)
    (exec_encode_of_valid rfl hv hd hbits) ⟨rfl, issueFirst_pending_of_idle hs _, rfl⟩
  exact ⟨_, hask, ht, rfl⟩

theorem askOk_mod {s : State} {b : List Byte} (hs : Idle s) (heven : b.length % 2 = 0) (hfits : b.length < 65536) :
    ∃ t, askOk (.mod b) s = some (t, b.map fun x => .num (axisOf x)) ∧ Idle t ∧ t.gen = s.gen := by
  obtain ⟨hask, ht⟩ := askOk_of_exec (line := .mod b) hs rfl (decide_eq_true hfits)
    (exec_modulate_of_even rfl heven) ⟨rfl, issueFirst_pending_of_idle hs _, rfl⟩
  exact ⟨_, hask, ht, rfl⟩

theorem askOk_decCfg {s : State} {l : Nat} (hs : Idle s) (hl : l ∈ supportedLengths) :
    ∃ t, askOk (.decCfg (BitVec.ofNat 8 l)) s = some (t, []) ∧ Idle t ∧ t.dec = .built s.gen l := by
  have hi : (Line.decCfg (BitVec.ofNat 8 l)).instr = some (.decCfg l) := by
    rw [Line.instr, toNat_ofNat_of_supported hl]
  obtain ⟨hask, ht⟩ := askOk_of_exec hs hi (decide_eq_true (lt_of_supported hl)) (exec_decCfg_of_supported rfl hl)
    ⟨rfl, issueFirst_pending_of_idle hs _, rfl⟩
  exact ⟨_, hask, ht, rfl⟩

theorem askOk_demod {s : State} {snrDb : Num64} {ys : List (Cplx Num64)} (hs : Idle s) (hfits : ys.length < 65536) :
    ∃ t, askOk (.demod snrDb ys) s = some (t, (ys.flatMap fun y => [y.re, y.im]).map fun v =>
      .num (reference.neg (reference.mul (scaleOf snrDb) v))) ∧ Idle t ∧ t.dec = s.dec := by
  obtain ⟨hask, ht⟩ := askOk_of_exec (line := .demod snrDb ys) hs rfl (decide_eq_true hfits)
    (exec_demodulate_components rfl) ⟨rfl, issueFirst_pending_of_idle hs _, rfl⟩
  exact ⟨_, hask, ht, rfl⟩

theorem askOk_decode {s : State} {llr : List Num64} {items : List Item} (hs : Idle s) (hfits : llr.length < 65536)
    (h : decodeResponse s.dec llr = some ⟨0x00, items⟩) : ∃ t, askOk (.decode llr) s = some (t, items) ∧ Idle t := by
  have hexec : exec (.decode llr.length) (s.issueFirst (Line.decode llr).assemble) = .next
      ((s.issueFirst (Line.decode llr).assemble).conclude (decodeResponse s.dec llr)) := exec_decode_eq_conclude rfl
  rw [h] at hexec
  obtain ⟨hask, ht⟩ := askOk_of_exec (line := .decode llr) hs rfl (decide_eq_true hfits) hexec
    ⟨rfl, issueFirst_pending_of_idle hs _, rfl⟩
  exact ⟨_, hask, ht⟩

/-! ## The search on noiseless LLRs (R113, R117) -/

theorem score_codeword_bounds (a c : Codeword) :
    -20 ≤ score a.toList c.toList ∧ score a.toList c.toList ≤ 20 ∧ (score a.toList c.toList = 20 → a = c) := by
  obtain ⟨hlo, hhi, heq⟩ := score_bounds (a := a.toList) (b := c.toList) (by simp)
  rw [Vector.length_toList] at hlo hhi heq
  exact ⟨hlo, hhi, fun h => Vector.toList_inj.mp (heq h)⟩

/-- No metric of noiseless LLRs is a NaN. -/
theorem isNaN_metric_softBit (a c : Codeword) : reference.isNaN (metric reference a (c.toList.map softBit)) = false := by
  obtain ⟨hlo, hhi, -⟩ := score_codeword_bounds a c
  rw [metric_softBit, reference_isNaN, isNaN_evenWord hlo hhi]

/-- R117: the sent codeword's metric is greater than that of any other. -/
theorem gt_metric_softBit {a c : Codeword} (h : a ≠ c) :
    reference.gt (metric reference c (c.toList.map softBit)) (metric reference a (c.toList.map softBit)) = true := by
  obtain ⟨hlo, hhi, heq⟩ := score_codeword_bounds a c
  have hlt : score a.toList c.toList < 20 := lt_of_le_of_ne hhi (mt heq h)
  have hself : score c.toList c.toList = 20 := by rw [score_self, Vector.length_toList]; rfl
  rw [reference_gt_key (by simpa using isNaN_metric_softBit c c) (by simpa using isNaN_metric_softBit a c), metric_softBit,
    metric_softBit, hself, decide_eq_true_eq]
  exact evenWord_lt hlo hlt le_rfl

/-- R117: the index found is that of the sent vector, which alone has the sent codeword. -/
theorem search_metrics_softBit {g : Gen} (hg : GenRank g) {l : Nat} (hl : l ∈ supportedLengths) {d : List Bool}
    (hd : d.length = l) : search reference
      (metrics reference (codewordTable g l) ((encodeCore g l d).toList.map softBit)) = idx d := by
  have hidx : idx d < 2 ^ l := hd ▸ idx_lt d
  have hbe : be (idx d) l = d := hd ▸ be_idx d
  have hsent : (codewordTable g l)[idx d]? = some (encodeCore g l d) := by
    rw [codewordTable_getElem? g l _ hidx, hbe]
  have hne : codewordTable g l ≠ [] := fun h => by simp [h] at hsent
  obtain ⟨cb, hcb, hspec⟩ := search_metrics_spec hne fun c _ => isNaN_metric_softBit c (encodeCore g l d)
  generalize search reference _ = i at *
  have hi : i < 2 ^ l := by
    have := (List.getElem?_eq_some_iff.mp hcb).1
    rwa [codewordTable_length] at this
  rw [codewordTable_getElem? g l i hi, Option.some.injEq] at hcb
  subst hcb
  have hcode : encodeCore g l (be i l) = encodeCore g l d := by
    by_contra hc
    have hgt := (hspec (idx d) _ hsent).1
    rw [gt_metric_softBit hc] at hgt
    cases hgt
  rw [← encodeCore_injective hg hl (be_length i l) hd hcode, idx_be hi]

/-! ## The macros (R62) -/

/-- A bit as a BitItem's value. -/
def bitByte (b : Bool) : Byte := if b then 1 else 0

/-- A noiseless codeword bit demodulates to its LLR of ±2.0. -/
theorem neg_mul_axisOf_bitByte (b : Bool) :
    reference.neg (reference.mul (scaleOf reference.zero) (axisOf (bitByte b))) = softBit b := by
  rw [reference_zero, noiselessSoftValuesAreTwoSigned]
  cases b <;> rfl

/-- R62: encmod of an information vector gives the symbols whose components, read off in order, are the axes of the codeword. -/
theorem encmod_eq {s : State} {l : Nat} {d : List Byte} (hs : Idle s) (hl : l ∈ supportedLengths) (hd : d.length = l)
    (hbits : ∀ b ∈ d, b = 0 ∨ b = 1) :
    ∃ (t : State) (ys : List (Cplx Num64)), encmod (BitVec.ofNat 8 l) d s = some (t, ys) ∧ Idle t ∧ t.gen = s.gen ∧
      ys.length = 10 ∧ (ys.flatMap fun y => [y.re, y.im]) =
        (encodeCore s.gen l (d.map (· == 1))).toList.map fun b => axisOf (bitByte b) := by
  obtain ⟨s₁, h₁, hs₁, hg₁, henc⟩ := askOk_encCfg hs hl
  have hlen : d.length = s₁.enc.l.toNat := by rw [henc, hd]; exact (toNat_ofNat_of_supported hl).symm
  obtain ⟨s₂, h₂, hs₂, hg₂⟩ := askOk_encode hs₁ (by rw [henc]) hlen hbits
  rw [hg₁, hd] at h₂
  have hcw : bitsOf ((encodeCore s.gen l (d.map (· == 1))).toList.map bitItem) =
      (encodeCore s.gen l (d.map (· == 1))).toList.map bitByte := bitsOf_map_bitItem _
  generalize (encodeCore s.gen l (d.map (· == 1))) = cw at *
  have h20 : (cw.toList.map bitByte).length = 20 := by simp
  obtain ⟨s₃, h₃, hs₃, hg₃⟩ := askOk_mod (b := cw.toList.map bitByte) hs₂ (by rw [h20]) (by rw [h20]; decide)
  obtain ⟨ys, hys, hflat⟩ := exists_pairUp (n := 10) (xs := cw.toList.map fun b => axisOf (bitByte b)) (by simp)
  have hitems : ((cw.toList.map bitByte).map fun x => Item.num (axisOf x)) =
      (ys.flatMap fun y => [y.re, y.im]).map .num := by rw [← hflat, List.map_map, List.map_map]; rfl
  refine ⟨s₃, ys, ?_, hs₃, by rw [hg₃, hg₂, hg₁], hys, hflat.symm⟩
  simp only [encmod, h₁, h₂, hcw, h₃, hitems, numsOf_map_num, pairUp_flatMap, Option.bind_eq_bind, Option.bind_some]
  rfl

/-- R62, R117: demdec of the noiseless symbols of a codeword gives the vector that was sent. -/
theorem demdec_eq {s : State} {l : Nat} {d : List Bool} {ys : List (Cplx Num64)} (hs : Idle s) (hg : GenRank s.gen)
    (hl : l ∈ supportedLengths) (hd : d.length = l) (hlen : ys.length = 10)
    (hys : (ys.flatMap fun y => [y.re, y.im]) = (encodeCore s.gen l d).toList.map fun b => axisOf (bitByte b)) :
    ∃ t : State, demdec (BitVec.ofNat 8 l) ys s = some (t, d.map bitByte) := by
  obtain ⟨s₁, h₁, hs₁, hdec⟩ := askOk_decCfg hs hl
  obtain ⟨s₂, h₂, hs₂, hdec₂⟩ := askOk_demod (snrDb := reference.zero) hs₁ (hlen.trans_lt (by decide))
  have hllr : ((ys.flatMap fun y => [y.re, y.im]).map fun v =>
      Item.num (reference.neg (reference.mul (scaleOf reference.zero) v))) =
        ((encodeCore s.gen l d).toList.map softBit).map .num := by
    rw [hys, List.map_map, List.map_map]
    exact List.map_congr_left fun b _ => congrArg Item.num (neg_mul_axisOf_bitByte b)
  have h20 : ((encodeCore s.gen l d).toList.map softBit).length = 20 := by simp
  have hresp : decodeResponse s₂.dec ((encodeCore s.gen l d).toList.map softBit) = some ⟨0x00, d.map bitItem⟩ := by
    rw [hdec₂, hdec, decodeResponse_of_num rfl h20 fun c _ => isNaN_metric_softBit c _]
    simp only [Dec.built, toNat_ofNat_of_supported hl, search_metrics_softBit hg hl hd]
    rw [← hd, be_idx]
  obtain ⟨s₃, h₃, -⟩ := askOk_decode hs₂ (by rw [h20]; decide) hresp
  refine ⟨s₃, ?_⟩
  simp only [demdec, h₁, h₂, hllr, numsOf_map_num, h₃, bitsOf_map_bitItem, Option.bind_eq_bind, Option.bind_some]
  rfl

theorem map_bitByte_of_binary {d : List Byte} (hbits : ∀ b ∈ d, b = 0 ∨ b = 1) : (d.map (· == 1)).map bitByte = d := by
  rw [List.map_map]
  refine (List.map_congr_left fun b hb => ?_).trans (List.map_id d)
  obtain rfl | rfl := hbits b hb <;> rfl

/-- Settles O38: `encmod_eq` gives the noiseless symbols of the vector's codeword, and `demdec_eq` the vector back. -/
theorem noiselessRoundTripGivesTheVectorBack : Obligations.NoiselessRoundTripGivesTheVectorBack := by
  intro s l d hf hp hg hl hd hbits
  obtain ⟨s', ys, henc, hs', hgen, hlen, hys⟩ := encmod_eq ⟨hf, hp⟩ hl hd hbits
  rw [← hgen] at hg hys
  obtain ⟨t, hdec⟩ := demdec_eq hs' hg hl (by rw [List.length_map, hd]) hlen hys
  rw [map_bitByte_of_binary hbits] at hdec
  exact ⟨s', ys, t, henc, hdec⟩

end Sys2Proof.Machine
end
